-- ==== Sys2Proof/Word.lean ====
section
/-! DEFINITION. The one word the engine computes on: an 8-bit byte (00_scope.md R14, R15). -/

namespace Sys2Proof

/-- A byte: 8 bits, bit 7 the most significant, bit `k` of weight `2^k` (R15; decision D9 of the spec). -/
abbrev Byte := BitVec 8

end Sys2Proof
end

