-- ==== Sys2Proof/Config.lean ====
section
/-! DEFINITION. What an implementation of the engine fixes: the spec's open parameters (00_scope.md R13, D20).
The block size 256, the code size 3 (R11) and the correction weight 11 (R165) are no parameters and stand as numbers. -/

namespace Sys2Proof

/-- The two width parameters of one platform (R13): `aw` bits of byte address, `lw` bits of the `len` field.
They stand in `Machine.State`, no step changes them, and every statement holds for all of them. -/
structure Params where
  aw : Nat
  lw : Nat
deriving DecidableEq, Repr

/-- The defaults the spec chooses: `AW = 32`, `LW = 32` (R13). -/
def Params.default : Params := ⟨32, 32⟩

/-- The constraints of R13: `AW >= 10`, `LW >= 9`, `LW <= AW`. -/
abbrev Params.Ok (p : Params) : Prop := 10 ≤ p.aw ∧ 9 ≤ p.lw ∧ p.lw ≤ p.aw

/-- `INSTANCES`, how many engines exist after reset: the spec's default 1 (R13).
A state may hold any number of them; this is the number `Machine.State.reset` holds. -/
def Config.numEngines : Nat := 1

end Sys2Proof
end

