-- ==== Sys2Proof/Syntax.lean ====
section
/-! DEFINITION. The operations as syntax: one constructor of `Instr` per row of spec/opcode_table.json, and the
command record of format CMD (10_state.md R36, 30_encoding.md R100). -/

namespace Sys2Proof

/-- The `op` field (R37): 0 is COMPUTE, 1 is VERIFY; both values are legal. -/
inductive Op where
  | compute
  | verify
deriving DecidableEq, Repr

/-- A command, the record of four fields the host presents as one unit (R36). The three numbers are unsigned and
used exactly as given (R102); their widths `LW`, `AW`, `AW` are checked by `Command.WellFormed`. -/
structure Command where
  op    : Op
  len   : Nat
  dbase : Nat
  cbase : Nat
deriving DecidableEq, Repr

/-- The operation set (R3, R101), one constructor per row of the opcode table. -/
inductive Instr where
  /-- `COMPUTE len, dbase, cbase` (R150). -/
  | compute (len dbase cbase : Nat)
  /-- `VERIFY len, dbase, cbase` (R180). -/
  | verify (len dbase cbase : Nat)
  /-- `COMPUTE256 dbase, cbase`: the pseudo-operation that runs the primitive COMPUTE256 once (R105, R120). -/
  | compute256 (dbase cbase : Nat)
  /-- `VERIFY256 dbase, cbase`: the pseudo-operation that runs the primitive VERIFY256 once (R105, R160). -/
  | verify256 (dbase cbase : Nat)
  /-- `POPCNT8(v)`: the internal bit population counter (R110); it has no command encoding (R101). -/
  | popcnt8 (v : Byte)
deriving DecidableEq, Repr

end Sys2Proof
end

