-- ==== Sys2Proof/WellFormed.lean ====
section
/-! DEFINITION. Which commands and instructions fit their fields (R36: `len` in `LW` bits, `dbase` and `cbase` in
`AW` bits). A `len` that is no positive multiple of 256 is well-formed: the engine answers it with LengthError (R203). -/

namespace Sys2Proof

/-- Every field fits its width (R36, R100). -/
abbrev Command.WellFormed (p : Params) (c : Command) : Prop :=
  c.len < 2 ^ p.lw ∧ c.dbase < 2 ^ p.aw ∧ c.cbase < 2 ^ p.aw

/-- The command an operation is issued as: `COMPUTE256 d, c` is `COMPUTE 256, d, c` and `VERIFY256 d, c` is
`VERIFY 256, d, c` (R105); POPCNT8 has none (R101). -/
def Instr.command : Instr → Option Command
  | .compute len d c => some ⟨.compute, len, d, c⟩
  | .verify len d c => some ⟨.verify, len, d, c⟩
  | .compute256 d c => some ⟨.compute, 256, d, c⟩
  | .verify256 d c => some ⟨.verify, 256, d, c⟩
  | .popcnt8 _ => none

/-- Every operand fits the field that holds it. -/
def Instr.wellFormed (p : Params) (i : Instr) : Bool :=
  match i.command with
  | some c => decide (c.WellFormed p)
  | none => true

end Sys2Proof
end

