-- ==== Sys2Proof/Decode.lean ====
section
/-! DEFINITION. The packed command word of 30_encoding.md R100 and R101: decoder, encoder, and the text form of R104.
The word is laid out in bytes, the least significant byte first (assumption 5). -/

namespace Sys2Proof

/-- The number a list of bytes holds, its first byte the least significant (assumption 5). -/
def ofBytesLE : List Byte → Nat
  | [] => 0
  | b :: bs => b.toNat + 256 * ofBytesLE bs

/-- The `n` low bytes of a number, the least significant first. -/
def toBytesLE : Nat → Nat → List Byte
  | 0, _ => []
  | n + 1, w => BitVec.ofNat 8 w :: toBytesLE n (w / 256)

/-- Width of the packed form in bits: `1 + LW + 2*AW` (R100). -/
def Params.packedBits (p : Params) : Nat := 1 + p.lw + 2 * p.aw

/-- The packed form in whole bytes: 13 for the defaults. -/
def Params.packedBytes (p : Params) : Nat := (p.packedBits + 7) / 8

/-- Why bytes are no packed command. R107: there is one length and one form. -/
inductive DecodeError where
  /-- The number of bytes is not that of the one packed form. -/
  | wrongLength
  /-- A bit above the top bit `LW + 2*AW` is set. -/
  | strayBits
deriving DecidableEq, Repr

/-- The fields of a packed word (R100): `op` is bit `LW + 2*AW`, `len` the `LW` bits below it, then `dbase`, then
`cbase` in the low `AW` bits. -/
def unpackCommand (p : Params) (w : Nat) : Command where
  op := if w / 2 ^ (p.lw + 2 * p.aw) % 2 = 1 then .verify else .compute
  len := w / 2 ^ (2 * p.aw) % 2 ^ p.lw
  dbase := w / 2 ^ p.aw % 2 ^ p.aw
  cbase := w % 2 ^ p.aw

/-- The instruction a command is: the opcode table's COMPUTE256 and VERIFY256 rows fix `op` and `len = 256`, the
COMPUTE and VERIFY rows fix `op` alone; the row that fixes more bits names the word (assumption 6). -/
def instrOf : Command → Instr
  | ⟨.compute, len, d, c⟩ => if len = 256 then .compute256 d c else .compute len d c
  | ⟨.verify, len, d, c⟩ => if len = 256 then .verify256 d c else .verify len d c

/-- The command bytes hold, or the name of what is wrong with them. -/
def decodeCommand (p : Params) (bs : List Byte) : Except DecodeError Command :=
  if bs.length ≠ p.packedBytes then .error .wrongLength
  else if 2 ^ p.packedBits ≤ ofBytesLE bs then .error .strayBits
  else .ok (unpackCommand p (ofBytesLE bs))

/-- The decoder: total on any bytes. -/
def decode (p : Params) (bs : List Byte) : Except DecodeError Instr :=
  match decodeCommand p bs with
  | .ok c => .ok (instrOf c)
  | .error e => .error e

/-- The 1-bit code of `op` (R37, R101). -/
def Op.code : Op → Nat
  | .compute => 0
  | .verify => 1

/-- The packed word `{op, len, dbase, cbase}` of a command (R100). -/
def packCommand (p : Params) (c : Command) : Nat :=
  ((c.op.code * 2 ^ p.lw + c.len) * 2 ^ p.aw + c.dbase) * 2 ^ p.aw + c.cbase

/-- The bytes of a command. -/
def encodeCommand (p : Params) (c : Command) : List Byte :=
  toBytesLE p.packedBytes (packCommand p c)

/-- The encoder: the bytes of an instruction; none for POPCNT8, which has no command encoding (R101). -/
def encode (p : Params) (i : Instr) : Option (List Byte) :=
  i.command.map (encodeCommand p)

/-- The name the decoder gives an instruction: `COMPUTE 256, d, c` and `COMPUTE256 d, c` are one word (R105), and so
for VERIFY. -/
def Instr.canonical : Instr → Instr
  | .compute len d c => instrOf ⟨.compute, len, d, c⟩
  | .verify len d c => instrOf ⟨.verify, len, d, c⟩
  | .compute256 d c => .compute256 d c
  | .verify256 d c => .verify256 d c
  | .popcnt8 v => .popcnt8 v

/-- The bytes of the table's word `w` of `nbits` bits: the packed form, the bits above `nbits` zero. A word longer
than the packed form keeps its length, so that the decoder refuses it. -/
def tableBytes (p : Params) (nbits w : Nat) : List Byte :=
  toBytesLE (max p.packedBytes ((nbits + 7) / 8)) (w % 2 ^ nbits)

/-- What the decoder reads from the opcode table's word, at the parameters' defaults. -/
def decodeTableWord (nbits w : Nat) : Option Instr :=
  match decode Params.default (tableBytes Params.default nbits w) with
  | .ok i => some i
  | .error _ => none

/-- The textual syntax of R104, numbers in decimal. -/
def Instr.text : Instr → String
  | .compute len d c => "COMPUTE " ++ toString len ++ ", " ++ toString d ++ ", " ++ toString c
  | .verify len d c => "VERIFY " ++ toString len ++ ", " ++ toString d ++ ", " ++ toString c
  | .compute256 d c => "COMPUTE256 " ++ toString d ++ ", " ++ toString c
  | .verify256 d c => "VERIFY256 " ++ toString d ++ ", " ++ toString c
  | .popcnt8 v => "POPCNT8(" ++ toString v.toNat ++ ")"

end Sys2Proof
end

