-- ==== Sys2Proof/Machine/State.lean ====
section
/-! DEFINITION. The state of the machine as plain data: the engine's registers (10_state.md), the other instances,
the host's memory and the host's inputs, and the state after reset (70_reset_and_hazards.md R231, 10_state.md R45). -/

namespace Sys2Proof.Machine

/-- The four classifications (R18, R96), in the order of their numbers. -/
inductive Classification where
  | noError
  | singleBitCorrected
  | eccCorrupted
  | multipleBitsUncorrectable
deriving DecidableEq, Repr

/-- Three code bytes (R80): the computed code, a stored code or a syndrome. -/
structure Code where
  b0 : Byte
  b1 : Byte
  b2 : Byte
deriving DecidableEq, Repr

/-- The per-block working registers (R21 to R29). -/
structure Work where
  /-- `CS`, the column sum (R21). -/
  cs : Byte
  /-- `LE`, the even line accumulator (R22). -/
  le : Byte
  /-- `LO`, the odd line accumulator (R23). -/
  lo : Byte
  /-- `CE`, the even column accumulator, held in 8 bits (R24). -/
  ce : Byte
  /-- `CO`, the odd column accumulator, held in 8 bits (R25). -/
  co : Byte
  /-- `I`, the loop index, a counter up to 256 (R29). -/
  i : Nat
  /-- `CC[0..2]`, the computed code (R26). -/
  cc : Code
  /-- `SC[0..2]`, the stored code as read (R27). -/
  sc : Code
  /-- `SY[0..2]`, the syndrome (R27). -/
  sy : Code
  /-- `W`, the weight of the syndrome, 0 to 24 (R28). -/
  w : Nat
  /-- `BYTEOFF`, the byte offset of the bit to correct (R28). -/
  byteOff : BitVec 8
  /-- `BITOFF`, the bit offset of the bit to correct (R28). -/
  bitOff : BitVec 3
deriving DecidableEq, Repr

/-- One engine instance: every register of 10_state.md. -/
structure Engine where
  /-- The per-block working registers. -/
  work : Work
  /-- `BLK`, the block index (R30): this hardware's program counter. -/
  blk : Nat
  /-- `DP`, the data pointer, an address of `AW` bits (R31). -/
  dp : Nat
  /-- `CP`, the code pointer, an address of `AW` bits (R31). -/
  cp : Nat
  /-- `N`, the number of blocks of the command (R32). -/
  n : Nat
  /-- `CORR`, the "a block was corrected" flag (R34). -/
  corr : Bool
  /-- The command fields `op`, `len`, `dbase`, `cbase` (R36). -/
  cmd : Command
  /-- The response field `err` (R39). -/
  err : Bool
  /-- The response field `cls` (R39). -/
  cls : Classification
  /-- `BUSY` (R40). -/
  busy : Bool
  /-- The commands presented while `BUSY = 1`, which wait until the engine is idle (R40), the oldest first. -/
  waiting : List Command
deriving DecidableEq, Repr

/-- A range of byte addresses `[base, base + size)`. -/
structure Region where
  base : Nat
  size : Nat
deriving DecidableEq, Repr

/-- What the world outside the engine does next (R1, R8; decisions D1, D13 of the spec). An input lands between two
steps; a list of inputs interleaves the host's actions, the slices of a running command and the instances. -/
inductive HostInput where
  /-- The host presents a packed command and waits for its response; the whole command is one step (D1). -/
  | run (word : List Byte)
  /-- The host presents a packed command and goes on; the command runs slice by slice (D1). -/
  | present (word : List Byte)
  /-- The engine makes one step of its own: it accepts a waiting command, works on one slice, or responds. -/
  | tick
  /-- The host, or any agent on its side of the memory, writes one byte (R72). -/
  | write (addr : Nat) (v : Byte)
  /-- The host reads one byte (R68, R72). -/
  | read (addr : Nat)
  /-- Reset of the engine (R231 to R233); `made` is how many byte writes of the slice in progress were already made. -/
  | reset (made : Nat)
  /-- From here on the inputs are about another instance: the one at place `k` of `State.others` (R218). -/
  | switch (k : Nat)
deriving DecidableEq, Repr

/-- The whole machine. -/
structure State where
  /-- The widths of the platform (R13); no step changes them. -/
  params : Params
  /-- The instance that moves next. -/
  eng : Engine
  /-- The other instances (R218): `INSTANCES` is `others.length + 1`. -/
  others : List Engine
  /-- The host's memory (R42, R52 (b)), in the canonical form `Memory.wf`. -/
  mem : List Host.Cell
  /-- The address ranges that hold no ordinary storage (R56, R63, decision D16): the platform's, changed by no step. -/
  nonStorage : List Region
  /-- What the world outside does next, the next input first. -/
  inputs : List HostInput
  /-- The MODEL's own field: the output of the population counter when POPCNT8 runs by itself (R110). -/
  popOut : Nat
  /-- The MODEL's own field: the byte the host read last. -/
  hostData : Byte
deriving DecidableEq, Repr

/-- Why the machine stops with a fault. The spec defines no fault of the engine (R206); these are host inputs that
no host can make. -/
inductive Fault where
  /-- A host input names a byte address that does not fit `AW` bits (R52). Raised by `step`; safe. -/
  | addressOutside (addr : Nat)
  /-- A host input names an instance that does not exist (R218). Raised by `step`; safe. -/
  | noSuchEngine (k : Nat)
deriving DecidableEq, Repr

/-- Executions the spec gives no meaning. -/
inductive Refusal where
  /-- An instruction that has no meaning yet; no arm of `exec` answers it. Safe. -/
  | notModelled (mnemonic : String)
  /-- The presented bytes are no packed command (R100, R107). Raised by `step`; safe. -/
  | undecodable (why : DecodeError)
  /-- A buffer of the command passes the top of the address space (R65). Raised at acceptance; safe. -/
  | bufferWraps
  /-- The data buffer and the code buffer of the command share a byte (R64). Raised at acceptance; safe. -/
  | buffersOverlap
  /-- An access to an address without ordinary storage (R56, R206, decision D16): at acceptance of a command whose
  buffers touch one, and by a host read or write of one. Safe. -/
  | noStorage
  /-- Two agents and one byte (R72, R236; 93_implementation_defined.md U3): at acceptance of a command in conflict with another instance's running command,
  and by a host access to a running command's buffers. Safe. -/
  | dataRace
deriving DecidableEq, Repr

/-- The three zero bytes. -/
def Code.zero : Code := ⟨0, 0, 0⟩

/-- The working registers after reset: the spec leaves them unspecified (R45); zero is the model's choice
(assumption 1). -/
def Work.reset : Work where
  cs := 0
  le := 0
  lo := 0
  ce := 0
  co := 0
  i := 0
  cc := Code.zero
  sc := Code.zero
  sy := Code.zero
  w := 0
  byteOff := 0
  bitOff := 0

/-- An engine after reset: `BUSY = 0` (R231); every other register is unspecified (R45) and zero is the model's
choice (assumption 1). -/
def Engine.reset : Engine where
  work := Work.reset
  blk := 0
  dp := 0
  cp := 0
  n := 0
  corr := false
  cmd := ⟨.compute, 0, 0, 0⟩
  err := false
  cls := .noError
  busy := false
  waiting := []

/-- The machine right after reset: the default parameters and one idle engine (R13, R231), memory with nothing
listed, and no input from outside. -/
def State.reset : State where
  params := Params.default
  eng := Engine.reset
  others := List.replicate (Config.numEngines - 1) Engine.reset
  mem := []
  nonStorage := []
  inputs := []
  popOut := 0
  hostData := 0

end Sys2Proof.Machine
end

