-- ==== Sys2Proof/Machine/Operands.lean ====
section
/-! DEFINITION. Operand assembly of a command: the block count, the length rule, the slice addresses and the buffers
(30_encoding.md R102, 20_memory.md R50 to R53, R60, R64, R65). -/

namespace Sys2Proof.Machine

/-- `N = len >> 8`, the number of blocks (R38, R102). -/
def blocks (len : Nat) : Nat := len / 256

/-- The length is legal: `len[7:0] = 0` and `N >= 1` (R102, R203, R205). -/
def legalLength (len : Nat) : Bool := len % 256 == 0 && 1 ≤ blocks len

/-- Byte `i` of data block `j`: `dbase + 256*j + i` (R53). -/
def dataAddr (dbase j i : Nat) : Nat := dbase + 256 * j + i

/-- Byte `k` of code `j`: `cbase + 3*j + k` (R53). -/
def codeAddr (cbase j k : Nat) : Nat := cbase + 3 * j + k

/-- The address lies in the region. -/
def Region.contains (r : Region) (a : Nat) : Bool := decide (r.base ≤ a) && decide (a < r.base + r.size)

/-- No byte address lies in both regions. -/
def Region.disjoint (r q : Region) : Bool :=
  r.size == 0 || q.size == 0 || decide (r.base + r.size ≤ q.base) || decide (q.base + q.size ≤ r.base)

end Sys2Proof.Machine

namespace Sys2Proof

open Machine

/-- The data buffer, `len` bytes at `dbase` (R42, R50). -/
def Command.dataBuffer (c : Command) : Region := ⟨c.dbase, c.len⟩

/-- The code buffer, `3 * N` bytes at `cbase` (R42, R50). -/
def Command.codeBuffer (c : Command) : Region := ⟨c.cbase, 3 * blocks c.len⟩

/-- The address lies in a buffer of the command. -/
def Command.uses (c : Command) (a : Nat) : Bool := c.dataBuffer.contains a || c.codeBuffer.contains a

/-- The buffer the command may write (R60): COMPUTE the code buffer, VERIFY the data buffer. -/
def Command.written (c : Command) : Region :=
  match c.op with
  | .compute => c.codeBuffer
  | .verify => c.dataBuffer

/-- A buffer passes the top of the `2^AW`-byte address space (R65). -/
def Command.wraps (p : Params) (c : Command) : Bool :=
  decide (2 ^ p.aw < c.dbase + c.len) || decide (2 ^ p.aw < c.cbase + 3 * blocks c.len)

/-- The two buffers share a byte (R64). -/
def Command.overlaps (c : Command) : Bool := !c.dataBuffer.disjoint c.codeBuffer

/-- The region and a buffer of the command have a byte in common. -/
def Command.meets (c : Command) (r : Region) : Bool := !r.disjoint c.dataBuffer || !r.disjoint c.codeBuffer

/-- A buffer touches one of the regions (decision D16: those without ordinary storage). -/
def Command.touches (c : Command) (rs : List Region) : Bool :=
  rs.any c.meets

/-- The buffers of the two commands have a byte in common. -/
def Command.shares (c q : Command) : Bool := q.meets c.dataBuffer || q.meets c.codeBuffer

/-- The two commands may not run at once (R72, R236; 93_implementation_defined.md U3): their buffers share a byte, and
at least one of them is a VERIFY or may write the shared byte. -/
def Command.conflicts (c q : Command) : Bool :=
  ((c.op == .verify || q.op == .verify) && c.shares q) || q.meets c.written || c.meets q.written

end Sys2Proof
end

