-- ==== Sys2Proof/Machine/Ops.lean ====
section
/-! DEFINITION. The named operations over memory, codes and registers: MemRead and MemWrite (20_memory.md R56), bit
assembly, acceptance of a command, the LengthError response and the ordinary response (10_state.md R36 to R40,
60_exceptions.md R203, R204). -/

namespace Sys2Proof.Machine

/-- What an address reads as that nothing has written: 0, the model's choice (assumption 2). -/
def Memory.unwritten : Byte := 0

/-- `MemRead(addr, 1)` (R56). -/
def Memory.read : List Host.Cell → Nat → Byte
  | [], _ => Memory.unwritten
  | (b, v) :: m, a => if b = a then v else Memory.read m a

/-- The memory with `a` listed nowhere. -/
def Memory.erase (m : List Host.Cell) (a : Nat) : List Host.Cell := m.filter fun c => c.1 != a

/-- The memory with `(a, v)` put before the first higher address. -/
def Memory.insert : List Host.Cell → Nat → Byte → List Host.Cell
  | [], a, v => [(a, v)]
  | (b, u) :: m, a, v => if a < b then (a, v) :: (b, u) :: m else (b, u) :: Memory.insert m a v

/-- `MemWrite(addr, 1, v)` (R56): exactly the byte addressed changes. The canonical form is kept: a byte that reads as
unwritten is not listed. -/
def Memory.write (m : List Host.Cell) (a : Nat) (v : Byte) : List Host.Cell :=
  if v = Memory.unwritten then Memory.erase m a else Memory.insert (Memory.erase m a) a v

/-- Byte writes one after the other, the first of the list first (R61). -/
def Memory.writeAll (m : List Host.Cell) (ws : List Host.Cell) : List Host.Cell :=
  ws.foldl (fun m w => Memory.write m w.1 w.2) m

/-- The canonical form: addresses strictly rising, no entry equal to what an unlisted address reads as. -/
abbrev Memory.wf (m : List Host.Cell) : Prop :=
  m.Pairwise (fun c d => c.1 < d.1) ∧ ∀ c ∈ m, c.2 ≠ Memory.unwritten

/-- The 256 bytes at `dp` as the block `D[0..255]` (R16, R53). -/
def blockAt (m : List Host.Cell) (dp : Nat) : Nat → Byte := fun i => Memory.read m (dp + i)

/-- The three code bytes at `cp`, byte 0 at the lowest address (R54). -/
def codeAt (m : List Host.Cell) (cp : Nat) : Code :=
  ⟨Memory.read m cp, Memory.read m (cp + 1), Memory.read m (cp + 2)⟩

/-- The byte `{b7, b6, ..., b0}` (R16). -/
def byteOfBits (b7 b6 b5 b4 b3 b2 b1 b0 : Bool) : Byte :=
  BitVec.ofNat 8 (128 * b7.toNat + 64 * b6.toNat + 32 * b5.toNat + 16 * b4.toNat +
    8 * b3.toNat + 4 * b2.toNat + 2 * b1.toNat + b0.toNat)

/-- `v ^ (1 << k)`: bit `k` of a byte inverted (R15, R62). -/
def flipBit (v : Byte) (k : Nat) : Byte := v ^^^ (1#8 <<< k)

/-- Byte-wise XOR of two codes (R162). -/
def Code.xor (a b : Code) : Code := ⟨a.b0 ^^^ b.b0, a.b1 ^^^ b.b1, a.b2 ^^^ b.b2⟩

/-- Byte `k` of a code, `k` = 0, 1, 2. -/
def Code.byte (c : Code) (k : Nat) : Byte := if k = 0 then c.b0 else if k = 1 then c.b1 else c.b2

/-- The 2-bit number of a classification (R96). -/
def Classification.code : Classification → BitVec 2
  | .noError => 0
  | .singleBitCorrected => 1
  | .eccCorrupted => 2
  | .multipleBitsUncorrectable => 3

/-- The response `{err, cls}` as 3 bits, `err` the most significant (R97). -/
def Engine.response (e : Engine) : BitVec 3 := BitVec.ofBool e.err ++ e.cls.code

/-- The end of a command: the response is presented and `BUSY` goes to 0 (R39, R40). -/
def Engine.respond (e : Engine) (err : Bool) (cls : Classification) : Engine :=
  { e with err := err, cls := cls, busy := false }

/-- `raise LengthError` (R203), the one error: the command ends at once with `err = 1, cls = 0`. There is no trap
entry and no trap return (R211, R212): nothing is saved, and the engine is idle. -/
def Engine.raiseLengthError (e : Engine) (c : Command) : Engine :=
  { e with cmd := c }.respond true .noError

/-- The next slice: `BLK`, `DP` and `CP` advance in lockstep by 1, 256 and 3 (R30, R33); the two pointers are
registers of `AW` bits (assumption 7). -/
def Engine.advance (p : Params) (e : Engine) : Engine :=
  { e with blk := e.blk + 1, dp := (e.dp + 256) % 2 ^ p.aw, cp := (e.cp + 3) % 2 ^ p.aw }

/-- The engine is idle and no command waits: a command presented now is accepted at once (R36, R40). -/
def Engine.idle (e : Engine) : Bool := !e.busy && e.waiting.isEmpty

/-- A command that is presented while the engine runs another waits, and is never dropped (R40, R244). -/
def Engine.enqueue (e : Engine) (c : Command) : Engine := { e with waiting := e.waiting ++ [c] }

end Sys2Proof.Machine
end

