-- ==== Sys2Proof/Machine/Flags.lean ====
section
/-! DEFINITION. The engine's one flag, CORR (10_state.md R34, R35), and the results it chooses between
(44_verify_multi.md R183, R185). -/

namespace Sys2Proof.Machine

/-- `CORR` at the start of a command: 0 for VERIFY; a COMPUTE neither reads nor writes it (R34). -/
def corrAtStart (op : Op) (corr : Bool) : Bool :=
  match op with
  | .compute => corr
  | .verify => false

/-- `CORR` after a slice of VERIFY: set by SingleBitCorrected, otherwise unchanged (R34, R183). -/
def corrAfter (cls : Classification) (corr : Bool) : Bool := cls == .singleBitCorrected || corr

/-- A hard failure, which stops the scan at once (R184). -/
def Classification.hard : Classification → Bool
  | .noError => false
  | .singleBitCorrected => false
  | .eccCorrupted => true
  | .multipleBitsUncorrectable => true

/-- The classification presented when the scan completes (R153, R185). -/
def finalClass (op : Op) (corr : Bool) : Classification :=
  match op with
  | .compute => .noError
  | .verify => if corr then .singleBitCorrected else .noError

end Sys2Proof.Machine
end

