-- ==== Sys2Proof/Machine/Popcount.lean ====
section
/-! DEFINITION. The bit population counter (40_popcount.md): POPCNT8, PARITY8, POPCNT24, and the meaning of the
POPCNT8 row. -/

namespace Sys2Proof.Machine

/-- `POPCNT8(v) = v[0] + v[1] + ... + v[7]` (R110). -/
def popcnt8 (v : Byte) : Nat :=
  v[0].toNat + v[1].toNat + v[2].toNat + v[3].toNat +
  v[4].toNat + v[5].toNat + v[6].toNat + v[7].toNat

/-- `PARITY8(v) = POPCNT8(v) mod 2`, as the answer to "is the population count odd" (R111). -/
def parity8 (v : Byte) : Bool := popcnt8 v % 2 == 1

/-- `POPCNT24(s)`: the weight of three bytes, all 24 bits counted (R112). -/
def popcnt24 (s : Code) : Nat := popcnt8 s.b0 + popcnt8 s.b1 + popcnt8 s.b2

/-- POPCNT8 run by itself: no register, flag or memory byte is written (R110); its result stands at the counter's
output, a field of the model's own (assumption 8). -/
def execPopcnt8 (v : Byte) (s : State) : Host.Outcome State Fault Refusal :=
  .next { s with popOut := popcnt8 v }

end Sys2Proof.Machine
end

