-- ==== Sys2Proof/Machine/Encoder.lean ====
section
/-! DEFINITION. The per-block encoder COMPUTE256 (41_compute256.md R120 to R125), on the working registers, and the
code format (30_encoding.md R81 to R87). -/

namespace Sys2Proof.Machine

/-- The five accumulators and the loop index at the start of COMPUTE256 (R120, decision D18). -/
def Work.clear (r : Work) : Work := { r with cs := 0, le := 0, lo := 0, ce := 0, co := 0, i := 0 }

/-- Steps 1 and 2 on byte `i` of the block (R121, R122): the byte goes into the column sum; if its parity is odd,
`255 - i` goes into the even and `i` into the odd line accumulator. -/
def Work.lineStep (D : Nat → Byte) (r : Work) (i : Nat) : Work :=
  { r with
    cs := r.cs ^^^ D i
    le := if parity8 (D i) then r.le ^^^ BitVec.ofNat 8 (255 - i) else r.le
    lo := if parity8 (D i) then r.lo ^^^ BitVec.ofNat 8 i else r.lo
    i := i + 1 }

/-- Step 3 on bit position `k` of the column sum (R123): if the bit is 1, `7 - k` goes into the even and `k` into the
odd column accumulator. -/
def Work.columnStep (r : Work) (k : Nat) : Work :=
  { r with
    ce := if r.cs.getLsbD k then r.ce ^^^ BitVec.ofNat 8 (7 - k) else r.ce
    co := if r.cs.getLsbD k then r.co ^^^ BitVec.ofNat 8 k else r.co
    i := k + 1 }

/-- Step 4, the interleave: `pre0`, `pre1`, `pre2` (R87, R124). -/
def Work.pre (r : Work) : Code where
  b0 := byteOfBits r.lo[7] r.le[7] r.lo[6] r.le[6]
    r.lo[5] r.le[5] r.lo[4] r.le[4]
  b1 := byteOfBits r.lo[3] r.le[3] r.lo[2] r.le[2]
    r.lo[1] r.le[1] r.lo[0] r.le[0]
  b2 := byteOfBits r.co[2] r.ce[2] r.co[1] r.ce[1]
    r.co[0] r.ce[0] false false

/-- Step 5, the inversion: 8-bit NOT of all three bytes (R85, R125). -/
def Code.invert (c : Code) : Code := ⟨~~~c.b0, ~~~c.b1, ~~~c.b2⟩

/-- Steps 1 and 2: the loop over the 256 bytes (R120). -/
def Work.lines (D : Nat → Byte) (r : Work) : Work := (List.range 256).foldl (Work.lineStep D) r

/-- Step 3: the loop over the 8 columns, its index from 0 again (R120). -/
def Work.columns (r : Work) : Work := (List.range 8).foldl Work.columnStep { r with i := 0 }

/-- The accumulators after steps 1 to 3. -/
def Work.accumulate (D : Nat → Byte) (r : Work) : Work := (r.clear.lines D).columns

/-- COMPUTE256 (R120): from the block `D`, the code in `CC`. -/
def Work.compute256 (D : Nat → Byte) (r : Work) : Work :=
  { r.accumulate D with cc := (r.accumulate D).pre.invert }

/-- The three bytes before inversion, `PRE(D)` (R135). -/
def preOf (D : Nat → Byte) : Code := (Work.reset.accumulate D).pre

/-- The code of a block: what COMPUTE256 produces (R120), as a function of the block alone (R134). -/
def codeOf (D : Nat → Byte) : Code := (Work.reset.compute256 D).cc

end Sys2Proof.Machine
end

