-- ==== Sys2Proof/Machine/Corrector.lean ====
section
/-! DEFINITION. The per-block syndrome decoder and single-bit corrector VERIFY256 (43_verify256.md R160 to R168) on
the working registers, with the error address of 30_encoding.md R89 and R90. -/

namespace Sys2Proof.Machine

/-- `BYTEOFF`, from bits 7, 5, 3, 1 of `SY[0]` and then of `SY[1]` (R89; 90_conflicts.md C1). -/
def byteOffset (sy : Code) : BitVec 8 :=
  byteOfBits sy.b0[7] sy.b0[5] sy.b0[3] sy.b0[1]
    sy.b1[7] sy.b1[5] sy.b1[3] sy.b1[1]

/-- `BITOFF`, from bits 7, 5, 3 of `SY[2]` (R90; 90_conflicts.md C1). -/
def bitOffset (sy : Code) : BitVec 3 :=
  BitVec.ofNat 3 (4 * sy.b2[7].toNat + 2 * sy.b2[5].toNat + sy.b2[3].toNat)

/-- The classification a syndrome gives, the tests in the order of R163, R165, R166, R167 (R208). -/
def classify (sy : Code) : Classification :=
  if sy = Code.zero then .noError
  else if popcnt24 sy = 11 then .singleBitCorrected
  else if popcnt24 sy = 1 then .eccCorrupted
  else .multipleBitsUncorrectable

/-- Steps 1 and 2: recompute the code, read the stored code, form the syndrome (R161, R162). -/
def Work.syndrome (D : Nat → Byte) (sc : Code) (r : Work) : Work :=
  { r.compute256 D with sc := sc, sy := (r.compute256 D).cc.xor sc }

/-- `W` is written when the syndrome is not zero (R163, R164). -/
def Work.weigh (r : Work) : Work := if r.sy = Code.zero then r else { r with w := popcnt24 r.sy }

/-- `BYTEOFF` and `BITOFF` are written when the weight is 11 (R165). -/
def Work.locate (r : Work) : Work :=
  if classify r.sy = .singleBitCorrected then
    { r with byteOff := byteOffset r.sy, bitOff := bitOffset r.sy }
  else r

/-- VERIFY256's registers (R160): `SY` then classifies the block. -/
def Work.verify256 (D : Nat → Byte) (sc : Code) (r : Work) : Work := (r.syndrome D sc).weigh.locate

/-- The correction's one byte write (R62, R165), for a block at `dp` whose syndrome is `sy`; none for the other
classifications (R168). -/
def correction (D : Nat → Byte) (dp : Nat) (sy : Code) : List Host.Cell :=
  if classify sy = .singleBitCorrected then
    [(dp + (byteOffset sy).toNat, flipBit (D (byteOffset sy).toNat) (bitOffset sy).toNat)]
  else []

end Sys2Proof.Machine
end

