-- ==== Sys2Proof/Machine/Scan.lean ====
section
/-! DEFINITION. The scan over the slices of a command: acceptance, one slice, the response, the whole command, and one
step of the engine by itself (42_compute_multi.md R150 to R153, 44_verify_multi.md R180 to R186, decision D1). -/

namespace Sys2Proof.Machine

/-- The registers after the slice the engine stands at (R152, R160). -/
def Engine.sliceWork (e : Engine) (m : List Host.Cell) : Work :=
  match e.cmd.op with
  | .compute => e.work.compute256 (blockAt m e.dp)
  | .verify => e.work.verify256 (blockAt m e.dp) (codeAt m e.cp)

/-- The byte writes of the slice, in the order of R61: COMPUTE the three code bytes, VERIFY the correction if there is
one (R60). -/
def Engine.sliceWrites (e : Engine) (m : List Host.Cell) : List Host.Cell :=
  match e.cmd.op with
  | .compute =>
    let cc := (e.sliceWork m).cc
    [(e.cp, cc.b0), (e.cp + 1, cc.b1), (e.cp + 2, cc.b2)]
  | .verify => correction (blockAt m e.dp) e.dp (e.sliceWork m).sy

/-- The addresses the slice reads, in the order of R61: the 256 data bytes; then in VERIFY the three code bytes and,
for a correction, the byte to correct. -/
def Engine.sliceReads (e : Engine) (m : List Host.Cell) : List Nat :=
  let data := (List.range 256).map fun i => e.dp + i
  match e.cmd.op with
  | .compute => data
  | .verify => data ++ [e.cp, e.cp + 1, e.cp + 2] ++ (e.sliceWrites m).map Prod.fst

/-- The classification of the slice (R160); COMPUTE has none and goes on like NoError (R152). -/
def Engine.sliceClass (e : Engine) (m : List Host.Cell) : Classification :=
  match e.cmd.op with
  | .compute => .noError
  | .verify => classify (e.sliceWork m).sy

/-- One slice, completely, with its correction (R61, R182): then the next slice, or the response at once if it was a
hard failure (R183, R184). -/
def State.slice (s : State) : State :=
  let cls := s.eng.sliceClass s.mem
  let e := { s.eng with work := s.eng.sliceWork s.mem, corr := corrAfter cls s.eng.corr }
  { s with
    mem := Memory.writeAll s.mem (s.eng.sliceWrites s.mem)
    eng := if cls.hard then e.respond false cls else e.advance s.params }

/-- The end of the scan, `BLK = N`: the response (R153, R185). -/
def State.finish (s : State) : State :=
  { s with eng := s.eng.respond false (finalClass s.eng.cmd.op s.eng.corr) }

/-- The loop of R150 and R180 with `k` slices left, and then the response. -/
def scan : Nat → State → State
  | 0, s => s.finish
  | k + 1, s =>
    let t := s.slice
    if t.eng.busy then scan k t else t

/-- The registers of a command that is accepted with a legal length (R30, R31, R32, R34, R40). -/
def Engine.start (e : Engine) (c : Command) : Engine :=
  { e with
    cmd := c
    n := blocks c.len
    blk := 0
    dp := c.dbase
    cp := c.cbase
    corr := corrAtStart c.op e.corr
    busy := true }

/-- Another instance is running a command in conflict with this one (R72, R218; 93_implementation_defined.md U3). -/
def State.contended (s : State) (c : Command) : Bool :=
  s.others.any fun e => e.busy && c.conflicts e.cmd

/-- Acceptance of a command by an idle engine. The engine checks the length, before everything else (R204, R210).
The other tests are no checks of the engine: they are the executions the spec gives no meaning (R64, R65, R72,
decision D16), and the model refuses them. -/
def State.accept (s : State) (c : Command) : Host.Outcome State Fault Refusal :=
  if !legalLength c.len then .next { s with eng := s.eng.raiseLengthError c }
  else if c.wraps s.params then .refused .bufferWraps
  else if c.overlaps then .refused .buffersOverlap
  else if c.touches s.nonStorage then .refused .noStorage
  else if s.contended c then .refused .dataRace
  else .next { s with eng := s.eng.start c }

/-- A command from its presentation to its response, as one step (decision D1). While another command of the same
engine runs or waits, it waits (R40). -/
def State.runCommand (s : State) (c : Command) : Host.Outcome State Fault Refusal :=
  if s.eng.idle then
    match s.accept c with
    | .next t => .next (if t.eng.busy then scan t.eng.n t else t)
    | .fault f => .fault f
    | .refused r => .refused r
  else .next { s with eng := s.eng.enqueue c }

/-- One step of the engine by itself (decision D1): while `BUSY = 1` the next slice or the response; while idle the
acceptance of the oldest command that waits, or rest (R220). -/
def State.engineStep (s : State) : Host.Outcome State Fault Refusal :=
  if s.eng.busy then .next (if s.eng.blk < s.eng.n then s.slice else s.finish)
  else
    match s.eng.waiting with
    | [] => .next s
    | c :: cs => State.accept { s with eng := { s.eng with waiting := cs } } c

/-- Reset of the engine (R231 to R233): idle, no response, the memory as the accesses so far left it. `made` of the byte
writes of the slice in progress were already made. The commands that wait are the host's and stay (assumption 10). -/
def State.resetEngine (s : State) (made : Nat) : State :=
  { s with
    mem :=
      if s.eng.busy && decide (s.eng.blk < s.eng.n) then
        Memory.writeAll s.mem ((s.eng.sliceWrites s.mem).take made)
      else s.mem
    eng := { Engine.reset with waiting := s.eng.waiting } }

/-- A byte another agent may not write: one of a running command's buffers (R72). -/
def State.ownedForWrite (s : State) (a : Nat) : Bool :=
  (s.eng :: s.others).any fun e => e.busy && e.cmd.uses a

/-- A byte another agent may not read: one a running command may write (R72). -/
def State.ownedForRead (s : State) (a : Nat) : Bool :=
  (s.eng :: s.others).any fun e => e.busy && e.cmd.written.contains a

/-- The address has no ordinary storage (R56, decision D16). -/
def State.noStorageAt (s : State) (a : Nat) : Bool := s.nonStorage.any fun r => r.contains a

/-- The host writes one byte (R68, R72). -/
def State.hostWrite (s : State) (a : Nat) (v : Byte) : Host.Outcome State Fault Refusal :=
  if 2 ^ s.params.aw ≤ a then .fault (.addressOutside a)
  else if s.noStorageAt a then .refused .noStorage
  else if s.ownedForWrite a then .refused .dataRace
  else .next { s with mem := Memory.write s.mem a v }

/-- The host reads one byte (R68, R72). -/
def State.hostRead (s : State) (a : Nat) : Host.Outcome State Fault Refusal :=
  if 2 ^ s.params.aw ≤ a then .fault (.addressOutside a)
  else if s.noStorageAt a then .refused .noStorage
  else if s.ownedForRead a then .refused .dataRace
  else .next { s with hostData := Memory.read s.mem a }

/-- The instance at place `k` of the others becomes the one that moves next, and the two change places (R218). -/
def State.switchEngine (s : State) (k : Nat) : Host.Outcome State Fault Refusal :=
  match s.others[k]? with
  | some e => .next { s with eng := e, others := s.others.set k s.eng }
  | none => .fault (.noSuchEngine k)

/-- The host presents a command and goes on: it waits, and the engine accepts it in a step of its own (R40). -/
def State.presentCommand (s : State) (bs : List Byte) : Host.Outcome State Fault Refusal :=
  match decodeCommand s.params bs with
  | .ok c => .next { s with eng := s.eng.enqueue c }
  | .error e => .refused (.undecodable e)

end Sys2Proof.Machine
end

