-- ==== Sys2Proof/Machine/Compute.lean ====
section
/-! DEFINITION. The meanings of COMPUTE and of its one-block form COMPUTE256 (42_compute_multi.md, 41_compute256.md). -/

namespace Sys2Proof.Machine

/-- `COMPUTE len, dbase, cbase` (R150): the code of every block goes into the code buffer. -/
def execCompute (len dbase cbase : Nat) (s : State) : Host.Outcome State Fault Refusal :=
  s.runCommand ⟨.compute, len, dbase, cbase⟩

/-- `COMPUTE256 dbase, cbase` (R105, R120): the primitive once, as the command `COMPUTE 256, dbase, cbase`. -/
def execCompute256 (dbase cbase : Nat) (s : State) : Host.Outcome State Fault Refusal :=
  s.runCommand ⟨.compute, 256, dbase, cbase⟩

end Sys2Proof.Machine
end

