-- ==== Sys2Proof/Machine/Verify.lean ====
section
/-! DEFINITION. The meanings of VERIFY and of its one-block form VERIFY256 (44_verify_multi.md, 43_verify256.md). -/

namespace Sys2Proof.Machine

/-- `VERIFY len, dbase, cbase` (R180): every block against its stored code, corrected in place, one aggregate
classification. -/
def execVerify (len dbase cbase : Nat) (s : State) : Host.Outcome State Fault Refusal :=
  s.runCommand ⟨.verify, len, dbase, cbase⟩

/-- `VERIFY256 dbase, cbase` (R105, R160): the primitive once, as the command `VERIFY 256, dbase, cbase`. -/
def execVerify256 (dbase cbase : Nat) (s : State) : Host.Outcome State Fault Refusal :=
  s.runCommand ⟨.verify, 256, dbase, cbase⟩

end Sys2Proof.Machine
end

