-- ==== Sys2Proof/Machine/Dispatch.lean ====
section
/-! DEFINITION. One arm per row of the opcode table. -/

namespace Sys2Proof.Machine

def exec (i : Instr) (s : State) : Host.Outcome State Fault Refusal :=
  match i with
  | .compute len d c => Sys2Proof.Machine.execCompute len d c s
  | .verify len d c => Sys2Proof.Machine.execVerify len d c s
  | .compute256 d c => Sys2Proof.Machine.execCompute256 d c s
  | .verify256 d c => Sys2Proof.Machine.execVerify256 d c s
  | .popcnt8 v => Sys2Proof.Machine.execPopcnt8 v s

end Sys2Proof.Machine
end

