-- ==== Sys2Proof/Machine/Step.lean ====
section
/-! DEFINITION. One step of the machine: the next input of the world outside, or, where there is none, a step of the
engine by itself. The engine fetches no instructions (20_memory.md R71): a command is presented by the host. -/

namespace Sys2Proof.Machine

/-- One step. -/
def step (s : State) : Host.Outcome State Fault Refusal :=
  match s.inputs with
  | [] => s.engineStep
  | input :: rest =>
    let t := { s with inputs := rest }
    match input with
    | .run word =>
      match decode t.params word with
      | .ok i => exec i t
      | .error e => .refused (.undecodable e)
    | .present word => t.presentCommand word
    | .tick => t.engineStep
    | .write a v => t.hostWrite a v
    | .read a => t.hostRead a
    | .reset made => .next (t.resetEngine made)
    | .switch k => t.switchEngine k

/-- The state in which the very next step runs the instruction of the opcode table's word `w`: the host presents that
word to an idle engine and waits (R36, R40; assumption 4). -/
def State.withFetchWord (s : State) (nbits w : Nat) : State :=
  { s with
    eng := { s.eng with busy := false, waiting := [] }
    inputs := .run (tableBytes s.params nbits w) :: s.inputs }

end Sys2Proof.Machine
end

