-- ==== Sys2Proof/Machine/Arrays.lean ====
section
/-! DEFINITION. The engine in the source's own form, as pure functions on arrays indexed from 0 (20_memory.md
R52 (a)): `compute` and `verify` on a data buffer of `256 * n` bytes and a code buffer of `3 * n` bytes. -/

namespace Sys2Proof.Machine

/-- A list of bytes as a block: byte `i` of it. -/
def blockOf (data : List Byte) : Nat → Byte := fun i => data.getD i 0

/-- The first three bytes of a code buffer. -/
def codeOfBytes (code : List Byte) : Code := ⟨code.getD 0 0, code.getD 1 0, code.getD 2 0⟩

/-- The three bytes of a code, byte 0 first (R54). -/
def Code.bytes (c : Code) : List Byte := [c.b0, c.b1, c.b2]

/-- `compute` on `n` blocks: the codes, in the order of the blocks (R51, R152). -/
def computeArrays : Nat → List Byte → List Byte
  | 0, _ => []
  | n + 1, data => (codeOf (blockOf data)).bytes ++ computeArrays n (data.drop 256)

/-- VERIFY256 on one block as an array: the classification and the 256 bytes afterwards (R160, R165). -/
def verify256Array (data : List Byte) (code : Code) : Classification × List Byte :=
  let sy := (codeOf (blockOf data)).xor code
  let d := data.take 256
  match classify sy with
  | .singleBitCorrected =>
    (.singleBitCorrected,
      d.set (byteOffset sy).toNat (flipBit (blockOf data (byteOffset sy).toNat) (bitOffset sy).toNat))
  | cls => (cls, d)

/-- `verify` on `n` blocks: the aggregate classification and the data buffer afterwards (R182 to R186); `corr` says
whether an earlier block was corrected. -/
def verifyArrays : Nat → Bool → List Byte → List Byte → Classification × List Byte
  | 0, corr, data, _ => (if corr then .singleBitCorrected else .noError, data)
  | n + 1, corr, data, code =>
    match verify256Array data (codeOfBytes code) with
    | (.noError, d) =>
      let r := verifyArrays n corr (data.drop 256) (code.drop 3)
      (r.1, d ++ r.2)
    | (.singleBitCorrected, d) =>
      let r := verifyArrays n true (data.drop 256) (code.drop 3)
      (r.1, d ++ r.2)
    | (cls, d) => (cls, d ++ data.drop 256)

end Sys2Proof.Machine
end

