-- ==== Sys2Proof/Machine/Lattice.lean ====
section
/-! DEFINITION. The parity-bit XOR lattice: the 22 parities of a block in closed form (41_compute256.md R127 to R130),
the same function as the accumulators of COMPUTE256 (R131). -/

namespace Sys2Proof.Machine

/-- The XOR of a list of bits. -/
def xorAll (l : List Bool) : Bool := l.foldl xor false

/-- The XOR of all data bits `D[i][k]` whose position satisfies the condition. -/
def xorWhere (D : Nat → Byte) (cond : Nat → Nat → Bool) : Bool :=
  xorAll ((List.range 256).map fun i => xorAll ((List.range 8).map fun k => cond i k && (D i).getLsbD k))

/-- The even line parity `LP(2^j)`: the lines with bit `j` of the index 0 (R127). -/
def latticeLP (D : Nat → Byte) (j : Nat) : Bool := xorWhere D fun i _ => !i.testBit j

/-- The odd line parity `LP(2^j)'`: the lines with bit `j` of the index 1 (R128). -/
def latticeLP' (D : Nat → Byte) (j : Nat) : Bool := xorWhere D fun i _ => i.testBit j

/-- The even column parity `CP(2^j)`: the columns with bit `j` of the position 0 (R129). -/
def latticeCP (D : Nat → Byte) (j : Nat) : Bool := xorWhere D fun _ k => !k.testBit j

/-- The odd column parity `CP(2^j)'`: the columns with bit `j` of the position 1 (R130). -/
def latticeCP' (D : Nat → Byte) (j : Nat) : Bool := xorWhere D fun _ k => k.testBit j

end Sys2Proof.Machine
end

