-- ==== Sys2Proof/Safety.lean ====
section
/-! DEFINITION. The words the statements use: when a command is accepted, what VERIFY reports and leaves in memory as
functions of the memory it finds, errors in a block, and the invariant of the machine. -/

namespace Sys2Proof.Machine

/-- The host's duties of 70_reset_and_hazards.md R234 for the command: a legal length, buffers that neither wrap nor
overlap, in ordinary storage, and in no other running command's way. -/
abbrev State.Accepts (s : State) (c : Command) : Prop :=
  legalLength c.len = true ∧ c.wraps s.params = false ∧ c.overlaps = false ∧
  c.touches s.nonStorage = false ∧ s.contended c = false

/-- The syndrome of slice `j` in the memory `m` (R88, R162). -/
def syndromeAt (m : List Host.Cell) (c : Command) (j : Nat) : Code :=
  (codeOf (blockAt m (dataAddr c.dbase j 0))).xor (codeAt m (codeAddr c.cbase j 0))

/-- The classification of slice `j` in the memory `m` (R163 to R167). -/
def classAt (m : List Host.Cell) (c : Command) (j : Nat) : Classification := classify (syndromeAt m c j)

/-- The aggregate of the slices' classifications in scan order (R185): the first hard failure; else
SingleBitCorrected if there is one; else NoError. -/
def aggregate (l : List Classification) : Classification :=
  match l.find? Classification.hard with
  | some cls => cls
  | none => if Classification.singleBitCorrected ∈ l then .singleBitCorrected else .noError

/-- The slices before the first hard failure; all of them if there is none (R186). -/
def slicesPassed (m : List Host.Cell) (c : Command) : Nat :=
  ((List.range (blocks c.len)).takeWhile fun j => !(classAt m c j).hard).length

/-- The byte at address `a` after VERIFY found the memory `m` (R186): in a slice before the first hard failure that
is SingleBitCorrected, the byte at `BYTEOFF` with bit `BITOFF` inverted; every other byte as before. -/
def verifiedByte (m : List Host.Cell) (c : Command) (a : Nat) : Byte :=
  let j := (a - c.dbase) / 256
  let sy := syndromeAt m c j
  if c.dbase ≤ a ∧ j < slicesPassed m c ∧ classify sy = .singleBitCorrected ∧
      (a - c.dbase) % 256 = (byteOffset sy).toNat then
    flipBit (Memory.read m a) (bitOffset sy).toNat
  else Memory.read m a

/-- The bytes at `a`, `a + 1`, ..., `a + n - 1`. -/
def bytesAt (m : List Host.Cell) (a n : Nat) : List Byte := (List.range n).map fun i => Memory.read m (a + i)

/-- A block with bit `k` of byte `b` inverted (R177). -/
def flipDataBit (D : Nat → Byte) (b k : Nat) : Nat → Byte := fun i => if i = b then flipBit (D i) k else D i

/-- A block with the bits at the listed positions `(b, k)` inverted, one after the other. -/
def flipDataBits (D : Nat → Byte) (ps : List (Nat × Nat)) : Nat → Byte :=
  ps.foldl (fun E p => flipDataBit E p.1 p.2) D

/-- A code with bit `q` of its 24 bits inverted: bit `q % 8` of byte `q / 8`. -/
def flipCodeBit (c : Code) (q : Nat) : Code where
  b0 := if q / 8 = 0 then flipBit c.b0 (q % 8) else c.b0
  b1 := if q / 8 = 1 then flipBit c.b1 (q % 8) else c.b1
  b2 := if q / 8 = 2 then flipBit c.b2 (q % 8) else c.b2

/-- The block that is all zero except bit `k` of byte `b`: `E(b, k)` (R137). -/
def oneBit (b k : Nat) : Nat → Byte := flipDataBit (fun _ => 0) b k

/-- What always holds of one engine's registers. -/
structure Engine.Inv (p : Params) (e : Engine) : Prop where
  /-- The command fields fit their widths (R36). -/
  cmdFits : e.cmd.WellFormed p
  /-- So do those of the commands that wait. -/
  waitingFits : ∀ c ∈ e.waiting, c.WellFormed p
  /-- `DP` and `CP` are addresses of `AW` bits (R31). -/
  dpFits : e.dp < 2 ^ p.aw
  cpFits : e.cp < 2 ^ p.aw
  /-- `BLK` is at most `N` (R30). -/
  blkLe : e.blk ≤ e.n
  /-- `LW - 8` bits hold `N` (R30). -/
  nFits : e.n < 2 ^ (p.lw - 8)
  /-- Only bits 2 to 0 of `CE` and `CO` can be 1 (R24, R25). -/
  ceFits : e.work.ce.toNat < 8
  coFits : e.work.co.toNat < 8
  /-- `W` is in 0 to 24 (R28) and `I` in 0 to 256 (R29). -/
  wFits : e.work.w ≤ 24
  iFits : e.work.i ≤ 256
  /-- `cls` is 0 when `err` is 1 (R39), and while idle after a COMPUTE (R97). -/
  errClass : e.err = true → e.cls = .noError
  computeClass : e.busy = false → e.cmd.op = .compute → e.cls = .noError
  /-- A running command has a legal length (R203), its block count in `N` (R32), buffers that neither wrap nor overlap
  (R64, R65), and `DP`, `CP` at `dbase + 256 * BLK` and `cbase + 3 * BLK` (R31; modulo `2^AW`, assumption 7). -/
  running : e.busy = true →
    legalLength e.cmd.len = true ∧ e.n = blocks e.cmd.len ∧
    e.cmd.wraps p = false ∧ e.cmd.overlaps = false ∧
    e.dp = (e.cmd.dbase + 256 * e.blk) % 2 ^ p.aw ∧ e.cp = (e.cmd.cbase + 3 * e.blk) % 2 ^ p.aw

/-- What always holds of the machine: the parameters are within R13, every engine's registers are as above, the
memory is in its canonical form and within the address space. -/
structure State.Inv (s : State) : Prop where
  paramsOk : s.params.Ok
  engInv : s.eng.Inv s.params
  othersInv : ∀ e ∈ s.others, e.Inv s.params
  memWf : Memory.wf s.mem
  memFits : ∀ c ∈ s.mem, c.1 < 2 ^ s.params.aw
  popOutFits : s.popOut ≤ 8

/-- Two instances do not both run commands that are in conflict (R72, R218; 93_implementation_defined.md U3). -/
def Engine.compatible (e f : Engine) : Prop :=
  e.busy = true → f.busy = true → e.cmd.conflicts f.cmd = false

/-- No two running commands of different instances are in conflict (R72). -/
def State.Exclusive (s : State) : Prop := (s.eng :: s.others).Pairwise Engine.compatible

end Sys2Proof.Machine
end

