-- ==== Sys2Proof/Certificates/Slice0/Obligations.lean ====
section
/-! DEFINITION. The statements for the provers. Each docstring names the rule of spec/ it formalises, or the model's
choice (assumption <n>) it rests on. -/

open Sys2Proof Sys2Proof.Machine

/-! ### Encoding -/

/-- R100, R101: the command words of the programs of 95_test_vectors.md, written out field by field as
`op_len_dbase_cbase`, decode to the commands they stand for; the one-block words carry the names of the rows
COMPUTE256 and VERIFY256 (assumption 6). -/
def Obligations.CommandWordsDecode : Prop :=
  decodeTableWord 104 0x0_00000200_00001000_00002000 = some (.compute 0x200 0x1000 0x2000) ∧
  decodeTableWord 104 0x1_00000200_00001000_00002000 = some (.verify 0x200 0x1000 0x2000) ∧
  decodeTableWord 104 0x1_00000300_00008000_00009000 = some (.verify 0x300 0x8000 0x9000) ∧
  decodeTableWord 104 0x1_00000100_00008200_00009006 = some (.verify256 0x8200 0x9006) ∧
  decodeTableWord 104 0x0_00000100_00001000_00002000 = some (.compute256 0x1000 0x2000) ∧
  decodeTableWord 104 0x0_0000012C_00001000_00002000 = some (.compute 300 0x1000 0x2000) ∧
  decodeTableWord 104 0x2_00000100_00001000_00002000 = none

/-- R100, R105: for all widths, decoding the encoding of a well-formed instruction gives it back, under the name the
decoder gives it: `COMPUTE 256, d, c` and `COMPUTE256 d, c` are one word, and so for VERIFY (assumption 6). -/
def Obligations.DecodeOfEncode : Prop :=
  ∀ (p : Params) (i : Instr) (bs : List Byte), p.Ok → i.wellFormed p = true → encode p i = some bs →
    decode p bs = .ok i.canonical

/-- R100, R107: for all widths, bytes that decode are exactly the encoding of what they decode to, which is
well-formed and carries the decoder's name: no two byte strings decode to one instruction. -/
def Obligations.EncodeOfDecode : Prop :=
  ∀ (p : Params) (bs : List Byte) (i : Instr), p.Ok → decode p bs = .ok i →
    encode p i = some bs ∧ i.wellFormed p = true ∧ i.canonical = i

/-! ### The bit population counter -/

/-- R110, R111, R112: POPCNT8 counts the set bits, PARITY8 is that count mod 2 and the XOR of the eight bits, POPCNT24
is the sum over three bytes. -/
def Obligations.PopulationCounts : Prop :=
  (∀ v : Byte, popcnt8 v = ((List.range 8).filter fun k => v.getLsbD k).length) ∧
  (∀ v : Byte, (parity8 v = true ↔ popcnt8 v % 2 = 1) ∧
    parity8 v = xor v[0] (xor v[1] (xor v[2] (xor v[3] (xor v[4] (xor v[5] (xor v[6] v[7]))))))) ∧
  (∀ s : Code, popcnt24 s = popcnt8 s.b0 + popcnt8 s.b1 + popcnt8 s.b2)

/-- R111, its law: the parity of an XOR is the XOR of the parities, and inverting any one bit of a byte inverts its
parity. -/
def Obligations.ParityOfXor : Prop :=
  (∀ a b : Byte, parity8 (a ^^^ b) = xor (parity8 a) (parity8 b)) ∧
  (∀ (a : Byte) (k : Nat), k < 8 → parity8 (flipBit a k) = !parity8 a)

/-- POPCNT8 run by itself completes for every byte in every state: the number of set bits stands at the counter's
output, a field of the model's own (assumption 8), and nothing else changes (R110). -/
def Obligations.Popcnt8Completes : Prop :=
  ∀ (v : Byte) (s : State),
    exec (.popcnt8 v) s = .next { s with popOut := ((List.range 8).filter fun k => v.getLsbD k).length }

/-! ### COMPUTE256: the encoder and the lattice -/

/-- R131 (with R127 to R130): the accumulators after steps 1 to 3 are the 22 parities of the lattice, whatever the
registers held before. -/
def Obligations.LatticeEqualsAccumulators : Prop :=
  ∀ (D : Nat → Byte) (r : Work),
    (∀ j, j < 8 → (r.accumulate D).le.getLsbD j = latticeLP D j ∧ (r.accumulate D).lo.getLsbD j = latticeLP' D j) ∧
    (∀ j, j < 3 → (r.accumulate D).ce.getLsbD j = latticeCP D j ∧ (r.accumulate D).co.getLsbD j = latticeCP' D j)

/-- R81, R82, R83, R84, R86: the layout of the code, bit by bit, from the lattice: inverted, the primed parity above
the unprimed one, the highest pair first, and the two pad bits 1. -/
def Obligations.CodeLayout : Prop :=
  ∀ D : Nat → Byte,
    (∀ t, t < 4 →
      (codeOf D).b0.getLsbD (7 - 2 * t) = !latticeLP' D (7 - t) ∧
      (codeOf D).b0.getLsbD (6 - 2 * t) = !latticeLP D (7 - t) ∧
      (codeOf D).b1.getLsbD (7 - 2 * t) = !latticeLP' D (3 - t) ∧
      (codeOf D).b1.getLsbD (6 - 2 * t) = !latticeLP D (3 - t)) ∧
    (∀ t, t < 3 →
      (codeOf D).b2.getLsbD (7 - 2 * t) = !latticeCP' D (2 - t) ∧
      (codeOf D).b2.getLsbD (6 - 2 * t) = !latticeCP D (2 - t)) ∧
    (codeOf D).b2[1] = true ∧ (codeOf D).b2[0] = true

/-- R134: the code depends on the 256 data bytes and on nothing else: not on what the registers held, nor on anything
beyond the block. -/
def Obligations.CodeDependsOnBlockOnly : Prop :=
  ∀ (D E : Nat → Byte) (r q : Work), (∀ i, i < 256 → D i = E i) →
    (r.compute256 D).cc = (q.compute256 E).cc ∧ (r.compute256 D).cc = codeOf E

/-- R135: `PRE` is linear, `PRE` of the all-zero block is zero, and the XOR of two codes is `PRE` of the difference of
the blocks. -/
def Obligations.CodeIsLinear : Prop :=
  (∀ A B : Nat → Byte, preOf (fun i => A i ^^^ B i) = (preOf A).xor (preOf B)) ∧
  preOf (fun _ => 0) = Code.zero ∧
  (∀ A B : Nat → Byte, (codeOf A).xor (codeOf B) = preOf (fun i => A i ^^^ B i))

/-- R136, the pair law: `T`, the parity of the column sum, is the XOR of all 2048 data bits; `LE ^ LO` is FF if `T = 1` and
else 00, `CE ^ CO` is 7 if `T = 1` and else 0; the two bits of each of the eleven pairs of the code differ if `T = 1` and
are equal if `T = 0`; and the weight of `PRE` is 11 if `T = 1` and else `2 * (POPCNT8(LO) + POPCNT8(CO))`. -/
def Obligations.PairLaw : Prop :=
  ∀ (D : Nat → Byte) (r : Work),
    let a := r.accumulate D
    parity8 a.cs = xorWhere D (fun _ _ => true) ∧
    (if parity8 a.cs then
      a.le ^^^ a.lo = 0xFF#8 ∧ a.ce ^^^ a.co = 7#8 ∧ popcnt24 (preOf D) = 11
    else
      a.le ^^^ a.lo = 0#8 ∧ a.ce ^^^ a.co = 0#8 ∧ popcnt24 (preOf D) = 2 * (popcnt8 a.lo + popcnt8 a.co)) ∧
    (∀ t, t < 4 →
      xor ((codeOf D).b0.getLsbD (7 - 2 * t)) ((codeOf D).b0.getLsbD (6 - 2 * t)) = parity8 a.cs ∧
      xor ((codeOf D).b1.getLsbD (7 - 2 * t)) ((codeOf D).b1.getLsbD (6 - 2 * t)) = parity8 a.cs) ∧
    (∀ t, t < 3 →
      xor ((codeOf D).b2.getLsbD (7 - 2 * t)) ((codeOf D).b2.getLsbD (6 - 2 * t)) = parity8 a.cs)

/-- R137: one data bit at `(b, k)` gives `LO = b`, `CO = k` and the complements in `LE` and `CE`; in `PRE` the primed
positions spell `b` and `k`, the unprimed positions their complements, the pad positions are 0 and the weight is 11;
and inverting that bit of any block changes its code by exactly that `PRE`. -/
def Obligations.OneDataBit : Prop :=
  ∀ b k : Nat, b < 256 → k < 8 →
    let p := preOf (oneBit b k)
    (∀ r : Work, let a := r.accumulate (oneBit b k)
      a.lo = BitVec.ofNat 8 b ∧ a.le = ~~~(BitVec.ofNat 8 b) ∧
      a.co = BitVec.ofNat 8 k ∧ a.ce = BitVec.ofNat 8 (7 - k)) ∧
    (byteOfBits p.b0[7] p.b0[5] p.b0[3] p.b0[1] p.b1[7] p.b1[5] p.b1[3] p.b1[1]).toNat = b ∧
    (byteOfBits p.b0[6] p.b0[4] p.b0[2] p.b0[0] p.b1[6] p.b1[4] p.b1[2] p.b1[0]).toNat = 255 - b ∧
    (byteOfBits false false false false false p.b2[7] p.b2[5] p.b2[3]).toNat = k ∧
    (byteOfBits false false false false false p.b2[6] p.b2[4] p.b2[2]).toNat = 7 - k ∧
    p.b2[1] = false ∧ p.b2[0] = false ∧ popcnt24 p = 11 ∧
    (∀ D : Nat → Byte, codeOf (flipDataBit D b k) = (codeOf D).xor p)

/-- 95_test_vectors.md section 3.2: documented codes, among them all-zero, all-`FF`, `G1`, `G2` and `G3`. -/
def Obligations.DocumentedCodes : Prop :=
  codeOf (fun _ => 0) = ⟨0xFF, 0xFF, 0xFF⟩ ∧
  codeOf (fun _ => 0xFF) = ⟨0xFF, 0xFF, 0xFF⟩ ∧
  codeOf (oneBit 0xA5 4) = ⟨0x66, 0x99, 0x6B⟩ ∧
  codeOf (fun i => BitVec.ofNat 8 (i * i / 16)) = ⟨0xA5, 0x56, 0x5B⟩ ∧
  codeOf (fun i => BitVec.ofNat 8 (3 * i / 2)) = ⟨0xA6, 0x66, 0x57⟩ ∧
  codeOf (fun i => BitVec.ofNat 8 (i % 7)) = ⟨0x0C, 0x30, 0xFF⟩

/-! ### VERIFY256: the syndrome decoder and the corrector -/

/-- R89, R90: the error address in the shift-and-mask form. -/
def Obligations.ErrorAddressByShiftAndMask : Prop :=
  ∀ sy : Code,
    byteOffset sy =
      (sy.b0 &&& 0x80#8) ||| ((sy.b0 <<< 1) &&& 0x40#8) ||| ((sy.b0 <<< 2) &&& 0x20#8) ||| ((sy.b0 <<< 3) &&& 0x10#8) |||
      ((sy.b1 >>> 4) &&& 0x08#8) ||| ((sy.b1 >>> 3) &&& 0x04#8) ||| ((sy.b1 >>> 2) &&& 0x02#8) ||| ((sy.b1 >>> 1) &&& 0x01#8) ∧
    (bitOffset sy).toNat =
      (((sy.b2 >>> 5) &&& 0x04#8) ||| ((sy.b2 >>> 4) &&& 0x02#8) ||| ((sy.b2 >>> 3) &&& 0x01#8)).toNat

/-- R161 to R168 on the registers and the write list: what VERIFY256 leaves in the accumulators, `CC`, `SC`, `SY`, `W`,
`BYTEOFF` and `BITOFF`, and the byte it writes, for each of the four outcomes. That `W` keeps its value under the zero
syndrome, and `BYTEOFF` and `BITOFF` unless the weight is 11, is the model's choice (assumption 13). -/
def Obligations.Verify256Outcomes : Prop :=
  ∀ (D : Nat → Byte) (sc : Code) (r : Work) (dp : Nat),
    let sy := (codeOf D).xor sc
    let q := r.verify256 D sc
    let w := popcnt8 sy.b0 + popcnt8 sy.b1 + popcnt8 sy.b2
    q.cc = codeOf D ∧ q.sc = sc ∧ q.sy = sy ∧
    q.cs = (r.accumulate D).cs ∧ q.le = (r.accumulate D).le ∧ q.lo = (r.accumulate D).lo ∧
    q.ce = (r.accumulate D).ce ∧ q.co = (r.accumulate D).co ∧ q.i = (r.accumulate D).i ∧
    (sy = ⟨0, 0, 0⟩ → classify sy = .noError ∧ q.w = r.w ∧ q.byteOff = r.byteOff ∧ q.bitOff = r.bitOff ∧
      correction D dp sy = []) ∧
    (sy ≠ ⟨0, 0, 0⟩ → 1 ≤ w ∧ w ≤ 24 ∧ q.w = w) ∧
    (w = 11 → classify sy = .singleBitCorrected ∧ q.byteOff = byteOffset sy ∧ q.bitOff = bitOffset sy ∧
      correction D dp sy =
        [(dp + (byteOffset sy).toNat, flipBit (D (byteOffset sy).toNat) (bitOffset sy).toNat)]) ∧
    (w = 1 → classify sy = .eccCorrupted ∧ q.byteOff = r.byteOff ∧ q.bitOff = r.bitOff ∧
      correction D dp sy = []) ∧
    (w ≠ 0 → w ≠ 1 → w ≠ 11 → classify sy = .multipleBitsUncorrectable ∧ q.byteOff = r.byteOff ∧
      q.bitOff = r.bitOff ∧ correction D dp sy = [])

/-- R169: if the stored code is that of `D` and the data differs from `D` in bit `k` of byte `b` only, the syndrome is
`PRE(E(b, k))` of weight 11, the offsets are `b` and `k`, and the flip restores `D`. -/
def Obligations.SingleBitErrorIsLocated : Prop :=
  ∀ (D : Nat → Byte) (b k : Nat), b < 256 → k < 8 →
    let sy := (codeOf (flipDataBit D b k)).xor (codeOf D)
    sy = preOf (oneBit b k) ∧ popcnt24 sy = 11 ∧ classify sy = .singleBitCorrected ∧
    (byteOffset sy).toNat = b ∧ (bitOffset sy).toNat = k ∧
    (∀ i, flipDataBit (flipDataBit D b k) (byteOffset sy).toNat (bitOffset sy).toNat i = D i)

/-- R171: two inverted bits are always MultipleBitsUncorrectable. (a) Two data bits: the weight is twice the number of
address bits in which they differ. (b) One data bit and one code bit: the weight is 10 or 12. (c) Two code bits: the
weight is 2. -/
def Obligations.TwoBitErrorsAreDetected : Prop :=
  ∀ D : Nat → Byte,
    (∀ b₁ k₁ b₂ k₂ : Nat, b₁ < 256 → k₁ < 8 → b₂ < 256 → k₂ < 8 → ¬(b₁ = b₂ ∧ k₁ = k₂) →
      let sy := (codeOf (flipDataBit (flipDataBit D b₁ k₁) b₂ k₂)).xor (codeOf D)
      popcnt24 sy = 2 * (popcnt8 (BitVec.ofNat 8 b₁ ^^^ BitVec.ofNat 8 b₂) +
        popcnt8 (BitVec.ofNat 8 k₁ ^^^ BitVec.ofNat 8 k₂)) ∧
      2 ≤ popcnt24 sy ∧ classify sy = .multipleBitsUncorrectable) ∧
    (∀ b k q : Nat, b < 256 → k < 8 → q < 24 →
      let sy := (codeOf (flipDataBit D b k)).xor (flipCodeBit (codeOf D) q)
      (popcnt24 sy = 10 ∨ popcnt24 sy = 12) ∧ classify sy = .multipleBitsUncorrectable) ∧
    (∀ q₁ q₂ : Nat, q₁ < 24 → q₂ < 24 → q₁ ≠ q₂ →
      let sy := (codeOf D).xor (flipCodeBit (flipCodeBit (codeOf D) q₁) q₂)
      popcnt24 sy = 2 ∧ classify sy = .multipleBitsUncorrectable)

/-- R172, its first sentence: three data bits at `a₁, a₂, a₃` give the syndrome of the one bit `a₁ ^ a₂ ^ a₃`:
SingleBitCorrected, and that bit is the one inverted. -/
def Obligations.ThreeBitErrorsAreMiscorrected : Prop :=
  ∀ (D : Nat → Byte) (b₁ k₁ b₂ k₂ b₃ k₃ : Nat),
    b₁ < 256 → k₁ < 8 → b₂ < 256 → k₂ < 8 → b₃ < 256 → k₃ < 8 →
    let sy := (codeOf (flipDataBits D [(b₁, k₁), (b₂, k₂), (b₃, k₃)])).xor (codeOf D)
    sy = preOf (oneBit (b₁ ^^^ b₂ ^^^ b₃) (k₁ ^^^ k₂ ^^^ k₃)) ∧
    classify sy = .singleBitCorrected ∧
    (byteOffset sy).toNat = b₁ ^^^ b₂ ^^^ b₃ ∧ (bitOffset sy).toNat = k₁ ^^^ k₂ ^^^ k₃

/-- R173: an even number of data bits whose addresses XOR to zero are missed: the syndrome is zero, NoError. -/
def Obligations.CancellingErrorsAreMissed : Prop :=
  ∀ (D : Nat → Byte) (ps : List (Nat × Nat)),
    (∀ p ∈ ps, p.1 < 256 ∧ p.2 < 8) → ps.length % 2 = 0 →
    ps.foldl (fun a p => a ^^^ p.1) 0 = 0 → ps.foldl (fun a p => a ^^^ p.2) 0 = 0 →
    (codeOf (flipDataBits D ps)).xor (codeOf D) = ⟨0, 0, 0⟩ ∧
    classify ((codeOf (flipDataBits D ps)).xor (codeOf D)) = .noError

/-- R174: the pad bits of a computed code are 1, and those of the stored code count. With intact data: one wrong pad
bit has weight 1, EccCorrupted, two have weight 2, MultipleBitsUncorrectable; with one inverted data bit and one
wrong pad bit the weight is 12, MultipleBitsUncorrectable, and nothing is corrected; and a stored code whose pad bits are
not both 1 never gives NoError, whatever the data. -/
def Obligations.PadBitsCount : Prop :=
  (∀ D : Nat → Byte,
    (codeOf D).b2[1] = true ∧ (codeOf D).b2[0] = true ∧
    classify ((codeOf D).xor (codeOf D)) = .noError ∧
    popcnt24 ((codeOf D).xor (flipCodeBit (codeOf D) 16)) = 1 ∧
    classify ((codeOf D).xor (flipCodeBit (codeOf D) 16)) = .eccCorrupted ∧
    popcnt24 ((codeOf D).xor (flipCodeBit (codeOf D) 17)) = 1 ∧
    classify ((codeOf D).xor (flipCodeBit (codeOf D) 17)) = .eccCorrupted ∧
    popcnt24 ((codeOf D).xor (flipCodeBit (flipCodeBit (codeOf D) 16) 17)) = 2 ∧
    classify ((codeOf D).xor (flipCodeBit (flipCodeBit (codeOf D) 16) 17)) = .multipleBitsUncorrectable) ∧
  (∀ (D : Nat → Byte) (b k q dp : Nat), b < 256 → k < 8 → q = 16 ∨ q = 17 →
    let sy := (codeOf (flipDataBit D b k)).xor (flipCodeBit (codeOf D) q)
    popcnt24 sy = 12 ∧ classify sy = .multipleBitsUncorrectable ∧ correction (flipDataBit D b k) dp sy = []) ∧
  (∀ (D : Nat → Byte) (sc : Code), ¬(sc.b2[1] = true ∧ sc.b2[0] = true) → classify ((codeOf D).xor sc) ≠ .noError)

/-- R177, the four properties of one block: a block against its own code is NoError; one inverted data bit is
SingleBitCorrected and the correction restores the block; one inverted code bit, pad bits included, is EccCorrupted; two
inverted bits, of the data, of the code or one of each, are MultipleBitsUncorrectable; and but for the second nothing is
written. -/
def Obligations.FourBlockProperties : Prop :=
  ∀ (D : Nat → Byte) (dp : Nat),
    (classify ((codeOf D).xor (codeOf D)) = .noError ∧ correction D dp ((codeOf D).xor (codeOf D)) = []) ∧
    (∀ b k : Nat, b < 256 → k < 8 →
      let sy := (codeOf (flipDataBit D b k)).xor (codeOf D)
      classify sy = .singleBitCorrected ∧ correction (flipDataBit D b k) dp sy = [(dp + b, D b)]) ∧
    (∀ q : Nat, q < 24 →
      let sy := (codeOf D).xor (flipCodeBit (codeOf D) q)
      classify sy = .eccCorrupted ∧ correction D dp sy = []) ∧
    (∀ (E : Nat → Byte) (sc : Code),
      (∃ b₁ k₁ b₂ k₂ : Nat, b₁ < 256 ∧ k₁ < 8 ∧ b₂ < 256 ∧ k₂ < 8 ∧ ¬(b₁ = b₂ ∧ k₁ = k₂) ∧
        E = flipDataBit (flipDataBit D b₁ k₁) b₂ k₂ ∧ sc = codeOf D) ∨
      (∃ b k q : Nat, b < 256 ∧ k < 8 ∧ q < 24 ∧ E = flipDataBit D b k ∧ sc = flipCodeBit (codeOf D) q) ∨
      (∃ q₁ q₂ : Nat, q₁ < 24 ∧ q₂ < 24 ∧ q₁ ≠ q₂ ∧ E = D ∧ sc = flipCodeBit (flipCodeBit (codeOf D) q₁) q₂) →
      classify ((codeOf E).xor sc) = .multipleBitsUncorrectable ∧ correction E dp ((codeOf E).xor sc) = [])

/-! ### COMPUTE and VERIFY: whole commands -/

/-- R150, R152, R153 for COMPUTE and COMPUTE256: an idle engine that is given a command which meets the host's duties
(R234) answers a next state, in which every code byte of every slice is that of its block, every byte outside the code
buffer is as before, and the response is `0 00`. -/
def Obligations.ComputeCompletes : Prop :=
  ∀ (i : Instr) (c : Command) (s : State), i.command = some c → c.op = .compute →
    s.eng.idle = true → s.Accepts c →
    ∃ t, exec i s = .next t ∧
      (∀ j k, j < c.len / 256 → k < 3 →
        Memory.read t.mem (c.cbase + 3 * j + k) = (codeOf (blockAt s.mem (c.dbase + 256 * j))).byte k) ∧
      (∀ a, a < c.cbase ∨ c.cbase + 3 * (c.len / 256) ≤ a → Memory.read t.mem a = Memory.read s.mem a) ∧
      t.eng.err = false ∧ t.eng.cls = .noError ∧ t.eng.busy = false

/-- R180 to R186 for VERIFY and VERIFY256: an idle engine that is given a command which meets the host's duties (R234)
answers a next state, in which the response is the aggregate of the slices' classifications in scan order, and
memory is as R186 says: in the slices before the first hard failure every SingleBitCorrected one has its bit inverted,
and every other byte is as before. -/
def Obligations.VerifyCompletes : Prop :=
  ∀ (i : Instr) (c : Command) (s : State), i.command = some c → c.op = .verify →
    s.eng.idle = true → s.Accepts c →
    ∃ t, exec i s = .next t ∧
      t.eng.cls = aggregate ((List.range (c.len / 256)).map (classAt s.mem c)) ∧
      (∀ a, Memory.read t.mem a = verifiedByte s.mem c a) ∧
      t.eng.err = false ∧ t.eng.busy = false

/-- R105: COMPUTE256 is `COMPUTE 256`, VERIFY256 is `VERIFY 256`; the first writes exactly the result of the primitive
COMPUTE256, and the second returns exactly the classification of the primitive VERIFY256 and makes exactly its
correction. -/
def Obligations.OneBlockCommandsRunThePrimitive : Prop :=
  ∀ (d c : Nat) (s : State),
    exec (.compute256 d c) s = exec (.compute 256 d c) s ∧
    exec (.verify256 d c) s = exec (.verify 256 d c) s ∧
    (s.eng.idle = true → s.Accepts ⟨.compute, 256, d, c⟩ →
      ∃ t, exec (.compute256 d c) s = .next t ∧
        t.eng.work = s.eng.work.compute256 (blockAt s.mem d) ∧
        codeAt t.mem c = t.eng.work.cc ∧
        (∀ a, a < c ∨ c + 3 ≤ a → Memory.read t.mem a = Memory.read s.mem a)) ∧
    (s.eng.idle = true → s.Accepts ⟨.verify, 256, d, c⟩ →
      ∃ t, exec (.verify256 d c) s = .next t ∧
        t.eng.work = s.eng.work.verify256 (blockAt s.mem d) (codeAt s.mem c) ∧
        t.eng.cls = classify t.eng.work.sy ∧
        t.mem = Memory.writeAll s.mem (correction (blockAt s.mem d) d t.eng.work.sy))

/-- R203, R205, R210: a command of either kind whose `len` is 0 or no multiple of 256, given to an idle engine, ends at
once with `err = 1, cls = 0`, whatever its buffers and whatever memory holds; no byte of memory is written, and the
engine is idle. -/
def Obligations.BadLengthIsLengthError : Prop :=
  ∀ (i : Instr) (c : Command) (s : State), i.command = some c → s.eng.idle = true →
    (c.len = 0 ∨ c.len % 256 ≠ 0) →
    ∃ t, exec i s = .next t ∧ t.eng.err = true ∧ t.eng.cls = .noError ∧ t.mem = s.mem ∧ t.eng.idle = true

/-- The frame of LengthError: but for the command fields, which hold what the host wrote (R200), and the response, no
register and nothing else of the machine changes. That `N`, `BLK`, `DP`, `CP`, `CORR` and the working registers keep their
values is the model's choice (assumption 13). -/
def Obligations.LengthErrorFrame : Prop :=
  ∀ (i : Instr) (c : Command) (s : State), i.command = some c → s.eng.idle = true →
    (c.len = 0 ∨ c.len % 256 ≠ 0) →
    exec i s = .next { s with eng := { s.eng with cmd := c, err := true, cls := .noError } }

/-- R64, R65, and decision D16 with U6: a command of legal length given to an idle engine is refused as bufferWraps if
one of its buffers passes the top of the address space; else as buffersOverlap if a byte address belongs to both; else as
noStorage if a byte address of one of them lies in a region without ordinary storage. The three names and their order
are the model's choice (assumption 12), and so is the list of the regions (assumption 3). -/
def Obligations.BadBuffersAreRefused : Prop :=
  ∀ (i : Instr) (c : Command) (s : State), i.command = some c → s.eng.idle = true →
    c.len ≠ 0 → c.len % 256 = 0 →
    (2 ^ s.params.aw < c.dbase + c.len ∨ 2 ^ s.params.aw < c.cbase + 3 * (c.len / 256) →
      exec i s = .refused .bufferWraps) ∧
    (c.dbase + c.len ≤ 2 ^ s.params.aw → c.cbase + 3 * (c.len / 256) ≤ 2 ^ s.params.aw →
      (∃ a, (c.dbase ≤ a ∧ a < c.dbase + c.len) ∧ (c.cbase ≤ a ∧ a < c.cbase + 3 * (c.len / 256))) →
      exec i s = .refused .buffersOverlap) ∧
    (c.wraps s.params = false → c.overlaps = false →
      (∃ r ∈ s.nonStorage, ∃ a, (r.base ≤ a ∧ a < r.base + r.size) ∧
        ((c.dbase ≤ a ∧ a < c.dbase + c.len) ∨ (c.cbase ≤ a ∧ a < c.cbase + 3 * (c.len / 256)))) →
      exec i s = .refused .noStorage)

/-- R40, R244: a command presented to an engine that is not idle waits behind those that wait already; nothing else
changes: it is not dropped and does not disturb the running command. -/
def Obligations.CommandWaitsWhileBusy : Prop :=
  ∀ (i : Instr) (c : Command) (s : State), i.command = some c →
    s.eng.busy = true ∨ s.eng.waiting ≠ [] →
    exec i s = .next { s with eng := { s.eng with waiting := s.eng.waiting ++ [c] } }

/-- The frame of COMPUTE and COMPUTE256 (R60, R150, R152): whenever one answers a next state, the widths, the other
instances, the storage map, the inputs, the model's own outputs, `CORR` and the registers of VERIFY256 (`SC`, `SY`, `W`,
`BYTEOFF`, `BITOFF`) are unchanged, and every byte is unchanged that is not a code byte of a command which an idle engine
ran with a legal length; the commands that wait stay, and at an engine that is not idle the new one is behind them (R40;
their list is the model's choice, assumption 10). That COMPUTE leaves those registers alone is assumption 13. -/
def Obligations.ComputeFrame : Prop :=
  ∀ (i : Instr) (c : Command) (s t : State), i.command = some c → c.op = .compute → exec i s = .next t →
    t.params = s.params ∧ t.others = s.others ∧ t.nonStorage = s.nonStorage ∧ t.inputs = s.inputs ∧
    t.popOut = s.popOut ∧ t.hostData = s.hostData ∧
    t.eng.corr = s.eng.corr ∧ t.eng.work.sc = s.eng.work.sc ∧ t.eng.work.sy = s.eng.work.sy ∧
    t.eng.work.w = s.eng.work.w ∧ t.eng.work.byteOff = s.eng.work.byteOff ∧ t.eng.work.bitOff = s.eng.work.bitOff ∧
    t.eng.waiting = (if s.eng.idle then s.eng.waiting else s.eng.waiting ++ [c]) ∧
    (∀ a, ¬(s.eng.idle = true ∧ legalLength c.len = true ∧ c.cbase ≤ a ∧ a < c.cbase + 3 * (c.len / 256)) →
      Memory.read t.mem a = Memory.read s.mem a)

/-- The frame of VERIFY and VERIFY256 (R60, R168, R186): whenever one answers a next state, the widths, the other
instances, the storage map, the inputs and the model's own outputs are unchanged; no byte outside the data buffer of a
command which an idle engine ran with a legal length is changed, the code buffer's bytes among them; and byte `b` of block
`j` is changed only if the slice is SingleBitCorrected, comes before the first hard failure and has `BYTEOFF = b`, and then
in bit `BITOFF` alone. The commands that wait stay, and at an engine that is not idle the new one is behind them (R40; their
list is the model's choice, assumption 10). -/
def Obligations.VerifyFrame : Prop :=
  ∀ (i : Instr) (c : Command) (s t : State), i.command = some c → c.op = .verify → exec i s = .next t →
    t.params = s.params ∧ t.others = s.others ∧ t.nonStorage = s.nonStorage ∧ t.inputs = s.inputs ∧
    t.popOut = s.popOut ∧ t.hostData = s.hostData ∧
    t.eng.waiting = (if s.eng.idle then s.eng.waiting else s.eng.waiting ++ [c]) ∧
    (∀ a, ¬(s.eng.idle = true ∧ legalLength c.len = true ∧ c.dbase ≤ a ∧ a < c.dbase + c.len) →
      Memory.read t.mem a = Memory.read s.mem a) ∧
    (∀ j b, j < c.len / 256 → b < 256 →
      Memory.read t.mem (c.dbase + 256 * j + b) =
        if s.eng.idle = true ∧ legalLength c.len = true ∧ j < slicesPassed s.mem c ∧
            classAt s.mem c j = .singleBitCorrected ∧ b = (byteOffset (syndromeAt s.mem c j)).toNat then
          flipBit (Memory.read s.mem (c.dbase + 256 * j + b)) (bitOffset (syndromeAt s.mem c j)).toNat
        else Memory.read s.mem (c.dbase + 256 * j + b))

/-- R30, R31, R32, R36 and R150: the registers after an accepted COMPUTE or COMPUTE256: the command fields as
presented, `N = len / 256`, `BLK = N`, `DP` and `CP` one slice past the last (modulo `2^AW`, assumption 7), and the
working registers as COMPUTE256 leaves them on the last block. -/
def Obligations.ComputeRegisters : Prop :=
  ∀ (i : Instr) (c : Command) (s : State), i.command = some c → c.op = .compute →
    s.eng.idle = true → s.Accepts c →
    ∃ t, exec i s = .next t ∧ t.eng.cmd = c ∧ t.eng.n = c.len / 256 ∧ t.eng.blk = c.len / 256 ∧
      t.eng.dp = (c.dbase + c.len) % 2 ^ s.params.aw ∧
      t.eng.cp = (c.cbase + 3 * (c.len / 256)) % 2 ^ s.params.aw ∧
      t.eng.work = s.eng.work.compute256 (blockAt s.mem (c.dbase + (c.len - 256)))

/-- R30, R31, R32, R34, R36 and R184: the registers after an accepted VERIFY or VERIFY256: the command fields as
presented, `N = len / 256`, `BLK` and the pointers at the slice of the first hard failure, or one past the last slice
if there is none (modulo `2^AW`, assumption 7); `CORR` set if an earlier slice was corrected; and the working registers as
VERIFY256 leaves them on the slices examined, one after the other, each on the bytes that the command found: so `CC`, `SC`,
`SY` and the accumulators are those of the last slice examined. That `CORR` stands after an abort, and what `W`, `BYTEOFF`
and `BITOFF` keep from an earlier slice, is the model's choice (assumption 13). -/
def Obligations.VerifyRegisters : Prop :=
  ∀ (i : Instr) (c : Command) (s : State), i.command = some c → c.op = .verify →
    s.eng.idle = true → s.Accepts c →
    ∃ t, exec i s = .next t ∧ t.eng.cmd = c ∧ t.eng.n = c.len / 256 ∧
      t.eng.blk = slicesPassed s.mem c ∧
      t.eng.dp = (c.dbase + 256 * slicesPassed s.mem c) % 2 ^ s.params.aw ∧
      t.eng.cp = (c.cbase + 3 * slicesPassed s.mem c) % 2 ^ s.params.aw ∧
      t.eng.corr = ((List.range (slicesPassed s.mem c)).any fun j => classAt s.mem c j == .singleBitCorrected) ∧
      (let k := min (slicesPassed s.mem c) (c.len / 256 - 1)
       let D := blockAt s.mem (c.dbase + 256 * k)
       let sc := codeAt s.mem (c.cbase + 3 * k)
       let w := t.eng.work
       w = (List.range (k + 1)).foldl
         (fun r j => r.verify256 (blockAt s.mem (c.dbase + 256 * j)) (codeAt s.mem (c.cbase + 3 * j))) s.eng.work ∧
       w.cc = codeOf D ∧ w.sc = sc ∧ w.sy = (codeOf D).xor sc ∧
       (∀ r : Work, w.cs = (r.accumulate D).cs ∧ w.le = (r.accumulate D).le ∧ w.lo = (r.accumulate D).lo ∧
         w.ce = (r.accumulate D).ce ∧ w.co = (r.accumulate D).co ∧ w.i = (r.accumulate D).i))

/-- R97: a COMPUTE responds `0 00` or `1 00`, a VERIFY `0 00`, `0 01`, `0 10`, `0 11` or `1 00`; `1 01`, `1 10` and
`1 11` never occur. -/
def Obligations.LegalResponses : Prop :=
  ∀ (i : Instr) (c : Command) (s t : State), i.command = some c → s.eng.idle = true → exec i s = .next t →
    (c.op = .compute → t.eng.response = 0b000#3 ∨ t.eng.response = 0b100#3) ∧
    (c.op = .verify → t.eng.response = 0b000#3 ∨ t.eng.response = 0b001#3 ∨ t.eng.response = 0b010#3 ∨
      t.eng.response = 0b011#3 ∨ t.eng.response = 0b100#3)

/-- R44, with R20: two idle engines, whatever ran on them before, give one command on one memory the same answer: both
refuse it for the same reason, or both answer the same response and the same memory. -/
def Obligations.HistoryHasNoEffect : Prop :=
  ∀ (i : Instr) (c : Command) (s : State) (e : Engine), i.command = some c →
    s.eng.idle = true → e.idle = true →
    (∃ r, exec i s = .refused r ∧ exec i { s with eng := e } = .refused r) ∨
    (∃ t u, exec i s = .next t ∧ exec i { s with eng := e } = .next u ∧
      t.eng.err = u.eng.err ∧ t.eng.cls = u.eng.cls ∧ t.mem = u.mem)

/-- R152: COMPUTE never reads the old contents of the code buffer: on two memories that differ only there, it leaves
the same memory everywhere and the same registers. -/
def Obligations.OldCodesAreNotRead : Prop :=
  ∀ (i : Instr) (c : Command) (s : State) (m : List Host.Cell), i.command = some c → c.op = .compute →
    s.eng.idle = true → s.Accepts c →
    (∀ a, a < c.cbase ∨ c.cbase + 3 * (c.len / 256) ≤ a → Memory.read m a = Memory.read s.mem a) →
    ∃ t u, exec i s = .next t ∧ exec i { s with mem := m } = .next u ∧ t.eng = u.eng ∧
      ∀ a, Memory.read t.mem a = Memory.read u.mem a

/-- R177, round-trip, for whole buffers (R188, last row): a VERIFY right after the COMPUTE of the same buffers responds
NoError and changes no byte, where the VERIFY meets the host's duties (R234). -/
def Obligations.VerifyAfterComputeIsClean : Prop :=
  ∀ (len d c : Nat) (s t : State), s.eng.idle = true → s.Accepts ⟨.verify, len, d, c⟩ →
    exec (.compute len d c) s = .next t →
    ∃ u, exec (.verify len d c) t = .next u ∧ u.eng.err = false ∧ u.eng.cls = .noError ∧ u.mem = t.mem

/-- R177, single-bit injection, for whole buffers: if memory `m` holds the code of every block and the machine's
memory is `m` but for one inverted bit of one data byte, VERIFY responds SingleBitCorrected and every byte is again as
in `m`. -/
def Obligations.SingleBitErrorIsRepaired : Prop :=
  ∀ (len d c j b k : Nat) (s : State) (m : List Host.Cell),
    s.eng.idle = true → s.Accepts ⟨.verify, len, d, c⟩ →
    (∀ j, j < len / 256 → codeAt m (c + 3 * j) = codeOf (blockAt m (d + 256 * j))) →
    j < len / 256 → b < 256 → k < 8 →
    (∀ a, Memory.read s.mem a =
      if a = d + 256 * j + b then flipBit (Memory.read m a) k else Memory.read m a) →
    ∃ t, exec (.verify len d c) s = .next t ∧ t.eng.err = false ∧ t.eng.cls = .singleBitCorrected ∧
      ∀ a, Memory.read t.mem a = Memory.read m a

/-- R177, code corruption, for whole buffers: if memory `m` holds the code of every block and the machine's memory is
`m` but for one inverted bit of one code byte, pad bits included, VERIFY responds EccCorrupted and changes nothing. -/
def Obligations.DamagedCodeIsReported : Prop :=
  ∀ (len d c j k q : Nat) (s : State) (m : List Host.Cell),
    s.eng.idle = true → s.Accepts ⟨.verify, len, d, c⟩ →
    (∀ j, j < len / 256 → codeAt m (c + 3 * j) = codeOf (blockAt m (d + 256 * j))) →
    j < len / 256 → k < 3 → q < 8 →
    (∀ a, Memory.read s.mem a =
      if a = c + 3 * j + k then flipBit (Memory.read m a) q else Memory.read m a) →
    ∃ t, exec (.verify len d c) s = .next t ∧ t.eng.err = false ∧ t.eng.cls = .eccCorrupted ∧ t.mem = s.mem

/-- R175, its last sentence: after EccCorrupted or MultipleBitsUncorrectable of one block nothing was changed, so a
second VERIFY256 gives the same result. -/
def Obligations.HardFailureRepeats : Prop :=
  ∀ (d c : Nat) (s t : State), s.eng.idle = true → s.Accepts ⟨.verify, 256, d, c⟩ →
    exec (.verify256 d c) s = .next t →
    t.eng.cls = .eccCorrupted ∨ t.eng.cls = .multipleBitsUncorrectable →
    t.mem = s.mem ∧ ∃ u, exec (.verify256 d c) t = .next u ∧ u.eng.cls = t.eng.cls ∧ u.mem = s.mem

/-- R52: the address form and the source's array form give the same results: after an accepted COMPUTE the code buffer
holds `compute` of the data buffer; after an accepted VERIFY the response and the data buffer are those of `verify` on
the two buffers. -/
def Obligations.ArrayFormAgrees : Prop :=
  ∀ (len d c : Nat) (s : State), s.eng.idle = true →
    (s.Accepts ⟨.compute, len, d, c⟩ →
      ∃ t, exec (.compute len d c) s = .next t ∧
        bytesAt t.mem c (3 * (len / 256)) = computeArrays (len / 256) (bytesAt s.mem d len) ∧
        bytesAt t.mem d len = bytesAt s.mem d len) ∧
    (s.Accepts ⟨.verify, len, d, c⟩ →
      ∃ t, exec (.verify len d c) s = .next t ∧
        (t.eng.cls, bytesAt t.mem d len) =
          verifyArrays (len / 256) false (bytesAt s.mem d len) (bytesAt s.mem c (3 * (len / 256))) ∧
        bytesAt t.mem c (3 * (len / 256)) = bytesAt s.mem c (3 * (len / 256)))

/-- R60, R61: a slice's registers, writes and classification depend on the bytes at the addresses it reads and on no
other, and its writes are as the table says: COMPUTE the three code bytes of the block in order; VERIFY, exactly when it
classifies SingleBitCorrected, the one byte at `BYTEOFF` of the block with bit `BITOFF` inverted. -/
def Obligations.SliceDependsOnItsReads : Prop :=
  ∀ (e : Engine) (m m' : List Host.Cell),
    ((∀ a ∈ e.sliceReads m, Memory.read m a = Memory.read m' a) →
      e.sliceWork m = e.sliceWork m' ∧ e.sliceWrites m = e.sliceWrites m' ∧ e.sliceClass m = e.sliceClass m') ∧
    (e.cmd.op = .compute →
      let code := codeOf (blockAt m e.dp)
      e.sliceWrites m = [(e.cp, code.b0), (e.cp + 1, code.b1), (e.cp + 2, code.b2)]) ∧
    (e.cmd.op = .verify →
      let sy := (codeOf (blockAt m e.dp)).xor (codeAt m e.cp)
      let a := e.dp + (byteOffset sy).toNat
      (e.sliceClass m = .singleBitCorrected →
        e.sliceWrites m = [(a, flipBit (Memory.read m a) (bitOffset sy).toNat)]) ∧
      (e.sliceClass m ≠ .singleBitCorrected → e.sliceWrites m = []))

/-! ### The machine -/

/-- Decision D1, R36, R40, R218: what a step does with its input, which it takes off the list. `run` with bytes that
decode to an instruction: `exec` of that instruction. `present` with such bytes: the command is behind those that wait
(R40; their list is assumption 10), and nothing else changes. Either with other bytes: refused. `tick`, and no input: a
step of the engine by itself. `switch k`: the instance at place `k` of the others and the one that moved are exchanged, and
nothing else changes; a fault where there is none. The inputs `run` and `present` are the model's form of the command
interface (assumption 4), `run` and `tick` the two step sizes of D1 (assumption 9), `switch` and its fault the model's form of
several instances (assumption 15). -/
def Obligations.StepRunsTheDecodedInstruction : Prop :=
  (∀ s : State, s.inputs = [] → step s = s.engineStep) ∧
  (∀ (s : State) (rest : List HostInput),
    (∀ bs i, s.inputs = .run bs :: rest → decode s.params bs = .ok i → step s = exec i { s with inputs := rest }) ∧
    (∀ bs i c, s.inputs = .present bs :: rest → decode s.params bs = .ok i → i.command = some c →
      step s = .next { s with inputs := rest, eng := { s.eng with waiting := s.eng.waiting ++ [c] } }) ∧
    (∀ bs e, s.inputs = .run bs :: rest ∨ s.inputs = .present bs :: rest → decode s.params bs = .error e →
      step s = .refused (.undecodable e)) ∧
    (s.inputs = .tick :: rest → step s = State.engineStep { s with inputs := rest }) ∧
    (∀ k f, s.inputs = .switch k :: rest → s.others[k]? = some f →
      step s = .next { s with inputs := rest, eng := f, others := s.others.set k s.eng }) ∧
    (∀ k, s.inputs = .switch k :: rest → s.others.length ≤ k → step s = .fault (.noSuchEngine k)))

/-- R45, R231, R13: after reset the engine is idle with `BUSY = 0` and no command waiting, so that it accepts a command
at once; the parameters are the defaults, and there is one engine. That memory lists nothing and reads as 0 (assumption 2),
and that every address holds storage, so that every legal command whose buffers neither wrap nor overlap is accepted
(assumption 3), is the model's choice. -/
def Obligations.ResetIsIdle : Prop :=
  State.reset.eng.busy = false ∧ State.reset.eng.waiting = [] ∧ State.reset.params = ⟨32, 32⟩ ∧
  State.reset.others = [] ∧ State.reset.mem = [] ∧
  (∀ c, legalLength c.len = true → c.wraps ⟨32, 32⟩ = false → c.overlaps = false →
    State.reset.accept c = .next { State.reset with eng := State.reset.eng.start c })

/-- R231, R232, R233: the reset input leaves an engine that is idle, with the commands that wait as they were (assumption
10), and the rest of the machine as it was. Memory holds the first `made` of the byte writes of the slice in progress
(`made` is the model's form of how far it had got, U8, assumption 9) and nothing else: none if the engine was idle or all
slices were done; of a COMPUTE the first `made` of the three code bytes; of a VERIFY, if the slice is SingleBitCorrected and
`made` is not 0, the byte at `BYTEOFF` with bit `BITOFF` inverted, so that no byte is half-corrected. -/
def Obligations.ResetAbandonsTheCommand : Prop :=
  ∀ (s : State) (made : Nat) (rest : List HostInput), s.inputs = .reset made :: rest →
    ∃ t, step s = .next t ∧ t.eng.busy = false ∧ t.eng.waiting = s.eng.waiting ∧
      t.params = s.params ∧ t.others = s.others ∧ t.nonStorage = s.nonStorage ∧ t.inputs = rest ∧
      t.popOut = s.popOut ∧ t.hostData = s.hostData ∧
      (s.eng.busy = false ∨ s.eng.n ≤ s.eng.blk → t.mem = s.mem) ∧
      (s.eng.busy = true → s.eng.blk < s.eng.n → s.eng.cmd.op = .compute →
        ∀ a, Memory.read t.mem a =
          if s.eng.cp ≤ a ∧ a < s.eng.cp + min made 3 then
            (codeOf (blockAt s.mem s.eng.dp)).byte (a - s.eng.cp)
          else Memory.read s.mem a) ∧
      (s.eng.busy = true → s.eng.blk < s.eng.n → s.eng.cmd.op = .verify →
        let sy := (codeOf (blockAt s.mem s.eng.dp)).xor (codeAt s.mem s.eng.cp)
        ∀ a, Memory.read t.mem a =
          if 1 ≤ made ∧ classify sy = .singleBitCorrected ∧ a = s.eng.dp + (byteOffset sy).toNat then
            flipBit (Memory.read s.mem a) (bitOffset sy).toNat
          else Memory.read s.mem a)

/-- R72, R236 and U3: while a command runs on any instance, a write by another agent to a byte of its buffers is refused,
so is a read of a byte it may write, and so is, at acceptance, a command of another instance whose buffers share a byte
with its buffers, where at least one of the two is a VERIFY or may write the shared byte. -/
def Obligations.DataRacesAreRefused : Prop :=
  ∀ (s : State) (f : Engine), f.busy = true →
    (∀ (a : Nat) (v : Byte) (rest : List HostInput), f = s.eng ∨ f ∈ s.others →
      a < 2 ^ s.params.aw → (∀ r ∈ s.nonStorage, r.contains a = false) →
      ((f.cmd.dbase ≤ a ∧ a < f.cmd.dbase + f.cmd.len) ∨
        (f.cmd.cbase ≤ a ∧ a < f.cmd.cbase + 3 * (f.cmd.len / 256))) →
      step { s with inputs := .write a v :: rest } = .refused .dataRace) ∧
    (∀ (a : Nat) (rest : List HostInput), f = s.eng ∨ f ∈ s.others →
      a < 2 ^ s.params.aw → (∀ r ∈ s.nonStorage, r.contains a = false) →
      ((f.cmd.op = .verify ∧ f.cmd.dbase ≤ a ∧ a < f.cmd.dbase + f.cmd.len) ∨
        (f.cmd.op = .compute ∧ f.cmd.cbase ≤ a ∧ a < f.cmd.cbase + 3 * (f.cmd.len / 256))) →
      step { s with inputs := .read a :: rest } = .refused .dataRace) ∧
    (∀ (i : Instr) (c : Command), f ∈ s.others → i.command = some c → s.eng.idle = true →
      legalLength c.len = true → c.wraps s.params = false → c.overlaps = false → c.touches s.nonStorage = false →
      (∃ a, ((c.dbase ≤ a ∧ a < c.dbase + c.len) ∨ (c.cbase ≤ a ∧ a < c.cbase + 3 * (c.len / 256))) ∧
        ((f.cmd.dbase ≤ a ∧ a < f.cmd.dbase + f.cmd.len) ∨
          (f.cmd.cbase ≤ a ∧ a < f.cmd.cbase + 3 * (f.cmd.len / 256))) ∧
        (c.op = .verify ∨ f.cmd.op = .verify ∨ (c.cbase ≤ a ∧ a < c.cbase + 3 * (c.len / 256)) ∨
          (f.cmd.cbase ≤ a ∧ a < f.cmd.cbase + 3 * (f.cmd.len / 256)))) →
      exec i s = .refused .dataRace)

/-- R56, R68: a host write to ordinary storage that no running command uses changes that byte and no other, and a
later host read of it returns the value written: it stands in `hostData`, a field of the model's own (assumption 15). -/
def Obligations.HostReadsBackItsWrite : Prop :=
  ∀ (s : State) (a : Nat) (v : Byte), a < 2 ^ s.params.aw → (∀ r ∈ s.nonStorage, r.contains a = false) →
    (∀ f ∈ s.eng :: s.others, f.busy = true → f.cmd.uses a = false) →
    ∃ t, Host.Core.run core 2 { s with inputs := [.write a v, .read a] } = .next t ∧ t.hostData = v ∧
      (∀ x, Memory.read t.mem x = if x = a then v else Memory.read s.mem x) ∧
      t.eng = s.eng ∧ t.others = s.others

/-- The machine right after reset meets the invariant, and no two of its instances run commands in conflict. The register
values after reset are the model's choice (assumption 1). -/
def Obligations.ResetMeetsTheInvariant : Prop := State.reset.Inv ∧ State.reset.Exclusive

/-- Every step keeps the invariant: the memory's canonical form and its bounds (R52, R56), the widths and ranges of the
registers (R24, R25, R28 to R31, R36), the legal responses (R97), and for a running command its legal length, its
block count, its buffers and its pointers in lockstep (R31, R32, R64, R65, R203). That the pointers are taken modulo `2^AW`
is assumption 7, that the counter's output `popOut` is at most 8 is about the model's own field (assumption 8), and after
a reset input the registers meet the invariant by the values that the model chose for them (assumption 1). -/
def Obligations.StepKeepsTheInvariant : Prop :=
  ∀ s t : State, s.Inv → step s = .next t → t.Inv

/-- R72, R218, U3: every step keeps the running commands of different instances out of conflict: whenever the buffers of two
share a byte, both are COMPUTEs and neither may write it. -/
def Obligations.StepKeepsBuffersExclusive : Prop :=
  ∀ s t : State, s.Exclusive → step s = .next t → t.Exclusive

/-- R220: an idle engine to which nothing is presented rests: with no input, the step changes nothing. R30 to R32, R34,
R36, R40: when a command waits at an idle engine, the next step accepts it: its fields are latched, `N = len / 256`,
`BLK = 0`, `DP = dbase`, `CP = cbase`, `CORR` is 0 for a VERIFY and as before for a COMPUTE, `BUSY = 1`, and nothing
else changes. -/
def Obligations.IdleEngineRestsOrAccepts : Prop :=
  ∀ s : State, s.inputs = [] → s.eng.busy = false →
    (s.eng.waiting = [] → step s = .next s) ∧
    (∀ c cs, s.eng.waiting = c :: cs → s.Accepts c →
      step s = .next { s with
        eng := { s.eng with
          waiting := cs
          cmd := c
          n := c.len / 256
          blk := 0
          dp := c.dbase
          cp := c.cbase
          corr := if c.op = .verify then false else s.eng.corr
          busy := true } })

/-- R33, R36, R40: while a command runs and goes on running, a step leaves its fields and `N` unchanged, advances `BLK`
by one or not at all, and keeps the commands that wait, in their order, new ones behind (a list in order of presentation
is the model's choice, assumption 10). The steps meant are all but a reset and a change to another instance. -/
def Obligations.RunningCommandIsStable : Prop :=
  ∀ s t : State, step s = .next t → s.eng.busy = true →
    (∀ made rest, s.inputs ≠ .reset made :: rest) → (∀ k rest, s.inputs ≠ .switch k :: rest) →
    t.eng.cmd = s.eng.cmd ∧ t.eng.n = s.eng.n ∧
    (t.eng.blk = s.eng.blk ∨ t.eng.blk = s.eng.blk + 1) ∧
    (∃ later, t.eng.waiting = s.eng.waiting ++ later)

/-- R247: with no further input, a running command reaches its response. The bound, one step for each slice that is left
and one more for the response, counts the model's own steps and is no count of the spec (assumption 9). -/
def Obligations.EveryCommandEnds : Prop :=
  ∀ s : State, s.inputs = [] → s.eng.busy = true →
    ∃ k t, k ≤ s.eng.n - s.eng.blk + 1 ∧ Host.Core.run core k s = .next t ∧ t.eng.busy = false

/-- Decision D1: the two levels agree. A command that an idle engine runs as one step leaves the machine exactly as
the same command presented and run slice by slice, in at most `N + 2` steps. -/
def Obligations.WholeCommandEqualsItsSlices : Prop :=
  ∀ (i : Instr) (c : Command) (s t : State), i.command = some c → s.inputs = [] → s.eng.idle = true →
    exec i s = .next t →
    ∃ k, k ≤ c.len / 256 + 2 ∧
      Host.Core.run core k { s with eng := { s.eng with waiting := [c] } } = .next t

/-- R218: two instances that run commands with no byte in common do not influence one another: whichever of the two
works on its next slice first, both engines end in the same state and every byte reads the same. The same holds of two
COMPUTEs that share data bytes, which both only read; that such a pair may run at once is read from R72 and U3, which
do not shut it out (assumption 11). -/
def Obligations.DisjointInstancesCommute : Prop :=
  ∀ (s : State) (f : Engine) (rest : List Engine), s.Inv → s.others = f :: rest →
    s.eng.busy = true → f.busy = true → s.eng.cmd.conflicts f.cmd = false →
    ∃ t u, Host.Core.run core 4 { s with inputs := [.tick, .switch 0, .tick, .switch 0] } = .next t ∧
      Host.Core.run core 4 { s with inputs := [.switch 0, .tick, .switch 0, .tick] } = .next u ∧
      t.eng = u.eng ∧ t.others = u.others ∧ ∀ a, Memory.read t.mem a = Memory.read u.mem a

/-! ### Addresses that a host access may not name -/

/-- Decision D16 with R56 and U6: a host write or read of an address in a region without ordinary storage is refused as
noStorage (the list of the regions: assumption 3); one of an address that does not fit `AW` bits stops with the
model's own fault, which no host can cause (assumption 15); whatever the engines run. -/
def Obligations.HostAccessNeedsStorage : Prop :=
  ∀ (s : State) (a : Nat) (v : Byte) (rest : List HostInput),
    (a < 2 ^ s.params.aw → (∃ r ∈ s.nonStorage, r.base ≤ a ∧ a < r.base + r.size) →
      step { s with inputs := .write a v :: rest } = .refused .noStorage ∧
      step { s with inputs := .read a :: rest } = .refused .noStorage) ∧
    (2 ^ s.params.aw ≤ a →
      step { s with inputs := .write a v :: rest } = .fault (.addressOutside a) ∧
      step { s with inputs := .read a :: rest } = .fault (.addressOutside a))
end

