-- ==== Sys2Proof/Laws/Bits.lean ====
section
/-! SUPPORT. Bits of bytes: assembly, inversion of one bit, population count and parity. -/

namespace Sys2Proof.Machine

/-- The bits of an assembled byte, bit 0 first. -/
theorem getElem_byteOfBits : ∀ b7 b6 b5 b4 b3 b2 b1 b0 : Bool, ∀ k : Fin 8,
    (byteOfBits b7 b6 b5 b4 b3 b2 b1 b0)[k] = [b0, b1, b2, b3, b4, b5, b6, b7][k] := by
  decide +kernel

section
variable (b7 b6 b5 b4 b3 b2 b1 b0 : Bool)

@[simp] theorem getElem_byteOfBits_0 : (byteOfBits b7 b6 b5 b4 b3 b2 b1 b0)[0] = b0 :=
  getElem_byteOfBits b7 b6 b5 b4 b3 b2 b1 b0 0
@[simp] theorem getElem_byteOfBits_1 : (byteOfBits b7 b6 b5 b4 b3 b2 b1 b0)[1] = b1 :=
  getElem_byteOfBits b7 b6 b5 b4 b3 b2 b1 b0 1
@[simp] theorem getElem_byteOfBits_2 : (byteOfBits b7 b6 b5 b4 b3 b2 b1 b0)[2] = b2 :=
  getElem_byteOfBits b7 b6 b5 b4 b3 b2 b1 b0 2
@[simp] theorem getElem_byteOfBits_3 : (byteOfBits b7 b6 b5 b4 b3 b2 b1 b0)[3] = b3 :=
  getElem_byteOfBits b7 b6 b5 b4 b3 b2 b1 b0 3
@[simp] theorem getElem_byteOfBits_4 : (byteOfBits b7 b6 b5 b4 b3 b2 b1 b0)[4] = b4 :=
  getElem_byteOfBits b7 b6 b5 b4 b3 b2 b1 b0 4
@[simp] theorem getElem_byteOfBits_5 : (byteOfBits b7 b6 b5 b4 b3 b2 b1 b0)[5] = b5 :=
  getElem_byteOfBits b7 b6 b5 b4 b3 b2 b1 b0 5
@[simp] theorem getElem_byteOfBits_6 : (byteOfBits b7 b6 b5 b4 b3 b2 b1 b0)[6] = b6 :=
  getElem_byteOfBits b7 b6 b5 b4 b3 b2 b1 b0 6
@[simp] theorem getElem_byteOfBits_7 : (byteOfBits b7 b6 b5 b4 b3 b2 b1 b0)[7] = b7 :=
  getElem_byteOfBits b7 b6 b5 b4 b3 b2 b1 b0 7

end

/-- Two bytes with the same eight bits are equal. -/
theorem byte_ext {a b : Byte} (h0 : a[0] = b[0]) (h1 : a[1] = b[1])
    (h2 : a[2] = b[2]) (h3 : a[3] = b[3]) (h4 : a[4] = b[4])
    (h5 : a[5] = b[5]) (h6 : a[6] = b[6]) (h7 : a[7] = b[7]) :
    a = b := by
  refine BitVec.eq_of_getElem_eq fun i hi => ?_
  interval_cases i <;> assumption

/-- Assembling bits commutes with XOR. -/
theorem byteOfBits_xor (a7 a6 a5 a4 a3 a2 a1 a0 b7 b6 b5 b4 b3 b2 b1 b0 : Bool) :
    byteOfBits (xor a7 b7) (xor a6 b6) (xor a5 b5) (xor a4 b4) (xor a3 b3) (xor a2 b2) (xor a1 b1) (xor a0 b0) =
      byteOfBits a7 a6 a5 a4 a3 a2 a1 a0 ^^^ byteOfBits b7 b6 b5 b4 b3 b2 b1 b0 := by
  apply byte_ext <;> simp

/-- Bit `j` of a byte with bit `k` inverted (R15). -/
theorem getLsbD_flipBit (v : Byte) {k j : Nat} (hj : j < 8) :
    (flipBit v k).getLsbD j = xor (v.getLsbD j) (decide (j = k)) := by
  unfold flipBit
  rw [BitVec.getLsbD_xor, BitVec.getLsbD_shiftLeft]
  by_cases h : j = k
  · subst h
    simp [hj]
  · by_cases hlt : j < k
    · simp [hlt, h]
    · simp only [hlt, h, decide_false, Bool.not_false, Bool.and_true, hj, decide_true, Bool.true_and,
        BitVec.getLsbD_one]
      have : j - k ≠ 0 := by omega
      simp [this]

/-- Inverting a bit twice changes nothing. -/
@[simp] theorem flipBit_flipBit (v : Byte) (k : Nat) : flipBit (flipBit v k) k = v := by
  unfold flipBit
  rw [BitVec.xor_assoc, BitVec.xor_self, BitVec.xor_zero]

/-- The population count of a byte with given bits is at most 8. -/
theorem popcnt8_le (v : Byte) : popcnt8 v ≤ 8 := by
  have h : ∀ b : Bool, b.toNat ≤ 1 := by decide
  unfold popcnt8
  have h0 := h (v[0])
  have h1 := h (v[1])
  have h2 := h (v[2])
  have h3 := h (v[3])
  have h4 := h (v[4])
  have h5 := h (v[5])
  have h6 := h (v[6])
  have h7 := h (v[7])
  omega

theorem popcnt24_le (s : Code) : popcnt24 s ≤ 24 := by
  have h0 := popcnt8_le s.b0
  have h1 := popcnt8_le s.b1
  have h2 := popcnt8_le s.b2
  unfold popcnt24
  omega

/-- Code XOR, byte by byte. -/
@[simp] theorem Code.xor_b0 (a b : Code) : (a.xor b).b0 = a.b0 ^^^ b.b0 := rfl
@[simp] theorem Code.xor_b1 (a b : Code) : (a.xor b).b1 = a.b1 ^^^ b.b1 := rfl
@[simp] theorem Code.xor_b2 (a b : Code) : (a.xor b).b2 = a.b2 ^^^ b.b2 := rfl

theorem Code.ext_bytes {a b : Code} (h0 : a.b0 = b.b0) (h1 : a.b1 = b.b1) (h2 : a.b2 = b.b2) : a = b := by
  cases a
  cases b
  simp_all

@[simp] theorem Code.xor_self (a : Code) : a.xor a = Code.zero := by
  simp [Code.xor, Code.zero]

theorem Code.xor_comm (a b : Code) : a.xor b = b.xor a := by
  simp [Code.xor, BitVec.xor_comm]

theorem Code.xor_assoc (a b c : Code) : (a.xor b).xor c = a.xor (b.xor c) := by
  simp [Code.xor, BitVec.xor_assoc]

@[simp] theorem Code.xor_zero (a : Code) : a.xor Code.zero = a := by
  simp [Code.xor, Code.zero]

@[simp] theorem Code.zero_xor (a : Code) : Code.zero.xor a = a := by
  simp [Code.xor, Code.zero]

/-- The inversion of R85 cancels in a syndrome (R88). -/
theorem Code.invert_xor_invert (a b : Code) : a.invert.xor b.invert = a.xor b := by
  apply Code.ext_bytes <;> apply byte_ext <;> simp [Code.invert]

end Sys2Proof.Machine
end

