-- ==== Sys2Proof/Laws/Encoder.lean ====
section
/-! SUPPORT. COMPUTE256 in closed form: each accumulator is one XOR over the block or over the column sum, and the
registers it does not write are unchanged. -/

namespace Sys2Proof.Machine

/-- The XOR of `f 0`, `f 1`, ..., `f (n - 1)`. -/
def xorFold (f : Nat → Byte) : Nat → Byte
  | 0 => 0#8
  | n + 1 => xorFold f n ^^^ f n

@[simp] theorem xorFold_zero (f : Nat → Byte) : xorFold f 0 = 0#8 := rfl
theorem xorFold_succ (f : Nat → Byte) (n : Nat) : xorFold f (n + 1) = xorFold f n ^^^ f n := rfl

theorem xorFold_congr {f g : Nat → Byte} {n : Nat} (h : ∀ i < n, f i = g i) : xorFold f n = xorFold g n := by
  induction n with
  | zero => rfl
  | succ n ih => rw [xorFold_succ, xorFold_succ, ih fun i hi => h i (by omega), h n (by omega)]

theorem xorFold_xor (f g : Nat → Byte) (n : Nat) :
    xorFold (fun i => f i ^^^ g i) n = xorFold f n ^^^ xorFold g n := by
  induction n with
  | zero => simp
  | succ n ih =>
    rw [xorFold_succ, xorFold_succ, xorFold_succ, ih]
    ac_rfl

theorem xorFold_const_zero (n : Nat) : xorFold (fun _ => 0#8) n = 0#8 := by
  induction n with
  | zero => rfl
  | succ n ih => rw [xorFold_succ, ih, BitVec.xor_zero]

/-- Only one summand is not zero. -/
theorem xorFold_single {f : Nat → Byte} {b n : Nat} (hb : b < n) (h : ∀ i, i ≠ b → f i = 0#8) :
    xorFold f n = f b := by
  induction n with
  | zero => omega
  | succ n ih =>
    rw [xorFold_succ]
    by_cases hn : n = b
    · subst hn
      have : xorFold f n = xorFold (fun _ => 0#8) n := xorFold_congr fun i hi => h i (by omega)
      rw [this, xorFold_const_zero, BitVec.zero_xor]
    · rw [ih (by omega), h n hn, BitVec.xor_zero]

/-- What byte `i` of the block adds to `LE` and to `LO` (R122). -/
def lineEven (D : Nat → Byte) (i : Nat) : Byte := if parity8 (D i) then BitVec.ofNat 8 (255 - i) else 0#8
def lineOdd (D : Nat → Byte) (i : Nat) : Byte := if parity8 (D i) then BitVec.ofNat 8 i else 0#8

/-- What bit `k` of the column sum adds to `CE` and to `CO` (R123). -/
def columnEven (cs : Byte) (k : Nat) : Byte := if cs.getLsbD k then BitVec.ofNat 8 (7 - k) else 0#8
def columnOdd (cs : Byte) (k : Nat) : Byte := if cs.getLsbD k then BitVec.ofNat 8 k else 0#8

/-- The five accumulators of a block. -/
def columnSum (D : Nat → Byte) : Byte := xorFold D 256
def linesEven (D : Nat → Byte) : Byte := xorFold (lineEven D) 256
def linesOdd (D : Nat → Byte) : Byte := xorFold (lineOdd D) 256
def columnsEven (cs : Byte) : Byte := xorFold (columnEven cs) 8
def columnsOdd (cs : Byte) : Byte := xorFold (columnOdd cs) 8

theorem xor_if (c : Bool) (a b : Byte) : (if c then a ^^^ b else a) = a ^^^ (if c then b else 0#8) := by
  cases c <;> simp

theorem foldl_lineStep (D : Nat → Byte) (r : Work) (n : Nat) :
    (List.range (n + 1)).foldl (Work.lineStep D) r =
      { r with
        cs := r.cs ^^^ xorFold D (n + 1)
        le := r.le ^^^ xorFold (lineEven D) (n + 1)
        lo := r.lo ^^^ xorFold (lineOdd D) (n + 1)
        i := n + 1 } := by
  induction n with
  | zero => simp [Work.lineStep, xorFold_succ, lineEven, lineOdd, xor_if]
  | succ n ih =>
    rw [List.range_succ, List.foldl_append, ih]
    simp only [List.foldl_cons, List.foldl_nil, Work.lineStep, xor_if]
    simp only [xorFold_succ (n := n + 1), lineEven, lineOdd, BitVec.xor_assoc]

theorem foldl_columnStep (r : Work) (n : Nat) :
    (List.range (n + 1)).foldl Work.columnStep r =
      { r with
        ce := r.ce ^^^ xorFold (columnEven r.cs) (n + 1)
        co := r.co ^^^ xorFold (columnOdd r.cs) (n + 1)
        i := n + 1 } := by
  induction n with
  | zero => simp [Work.columnStep, xorFold_succ, columnEven, columnOdd, xor_if]
  | succ n ih =>
    rw [List.range_succ, List.foldl_append, ih]
    simp only [List.foldl_cons, List.foldl_nil, Work.columnStep, xor_if]
    simp only [xorFold_succ (n := n + 1), columnEven, columnOdd, BitVec.xor_assoc]

/-- Steps 1 to 3 of COMPUTE256 in closed form; the other registers are unchanged. -/
theorem Work.accumulate_eq (D : Nat → Byte) (r : Work) :
    r.accumulate D =
      { r with
        cs := columnSum D
        le := linesEven D
        lo := linesOdd D
        ce := columnsEven (columnSum D)
        co := columnsOdd (columnSum D)
        i := 8 } := by
  unfold Work.accumulate Work.columns Work.lines
  rw [foldl_lineStep D r.clear 255, foldl_columnStep _ 7]
  simp [Work.clear, columnSum, linesEven, linesOdd, columnsEven, columnsOdd]

section
variable (D : Nat → Byte) (r : Work)

@[simp] theorem Work.accumulate_cs : (r.accumulate D).cs = columnSum D := by rw [Work.accumulate_eq]
@[simp] theorem Work.accumulate_le : (r.accumulate D).le = linesEven D := by rw [Work.accumulate_eq]
@[simp] theorem Work.accumulate_lo : (r.accumulate D).lo = linesOdd D := by rw [Work.accumulate_eq]
@[simp] theorem Work.accumulate_ce : (r.accumulate D).ce = columnsEven (columnSum D) := by rw [Work.accumulate_eq]
@[simp] theorem Work.accumulate_co : (r.accumulate D).co = columnsOdd (columnSum D) := by rw [Work.accumulate_eq]
@[simp] theorem Work.accumulate_i : (r.accumulate D).i = 8 := by rw [Work.accumulate_eq]
@[simp] theorem Work.accumulate_pre : (r.accumulate D).pre = preOf D := by
  simp only [preOf, Work.pre, Work.accumulate_lo, Work.accumulate_le, Work.accumulate_co, Work.accumulate_ce]

/-- The code is the inverted `PRE` of the block. -/
theorem codeOf_eq : codeOf D = (preOf D).invert := rfl

/-- COMPUTE256 on the registers: the accumulators, the index and `CC` are functions of the block, the other registers
are unchanged. -/
theorem Work.compute256_eq :
    r.compute256 D =
      { r with
        cs := columnSum D
        le := linesEven D
        lo := linesOdd D
        ce := columnsEven (columnSum D)
        co := columnsOdd (columnSum D)
        i := 8
        cc := codeOf D } := by
  unfold Work.compute256
  rw [Work.accumulate_pre, ← codeOf_eq, Work.accumulate_eq]

@[simp] theorem Work.compute256_cc : (r.compute256 D).cc = codeOf D := by rw [Work.compute256_eq]
@[simp] theorem Work.compute256_sc : (r.compute256 D).sc = r.sc := by rw [Work.compute256_eq]
@[simp] theorem Work.compute256_sy : (r.compute256 D).sy = r.sy := by rw [Work.compute256_eq]
@[simp] theorem Work.compute256_w : (r.compute256 D).w = r.w := by rw [Work.compute256_eq]
@[simp] theorem Work.compute256_i : (r.compute256 D).i = 8 := by rw [Work.compute256_eq]
@[simp] theorem Work.compute256_byteOff : (r.compute256 D).byteOff = r.byteOff := by rw [Work.compute256_eq]
@[simp] theorem Work.compute256_bitOff : (r.compute256 D).bitOff = r.bitOff := by rw [Work.compute256_eq]
@[simp] theorem Work.compute256_ce : (r.compute256 D).ce = columnsEven (columnSum D) := by rw [Work.compute256_eq]
@[simp] theorem Work.compute256_co : (r.compute256 D).co = columnsOdd (columnSum D) := by rw [Work.compute256_eq]

end

/-- `PRE` from the accumulators. -/
theorem preOf_eq (D : Nat → Byte) :
    preOf D =
      Work.pre
        { Work.reset with
          le := linesEven D
          lo := linesOdd D
          ce := columnsEven (columnSum D)
          co := columnsOdd (columnSum D) } := by
  simp only [preOf, Work.pre, Work.accumulate_lo, Work.accumulate_le, Work.accumulate_co, Work.accumulate_ce]

end Sys2Proof.Machine
end

