-- ==== Sys2Proof/Laws/Corrector.lean ====
section
/-! SUPPORT. VERIFY256 on the registers: which it writes, with what, and what its classification and its one write
depend on. -/

namespace Sys2Proof.Machine

section
variable (D : Nat → Byte) (sc : Code) (r : Work)

@[simp] theorem Work.syndrome_sy : (r.syndrome D sc).sy = (codeOf D).xor sc := by
  simp [Work.syndrome]

@[simp] theorem Work.weigh_sy : r.weigh.sy = r.sy := by
  unfold Work.weigh
  split <;> rfl

@[simp] theorem Work.locate_sy : r.locate.sy = r.sy := by
  unfold Work.locate
  split <;> rfl

/-- `SY` after VERIFY256 (R162). -/
@[simp] theorem Work.verify256_sy : (r.verify256 D sc).sy = (codeOf D).xor sc := by
  simp [Work.verify256]

/-- VERIFY256 on the registers: those of COMPUTE256, `SC` and `SY` always, `W` when the syndrome is not zero,
`BYTEOFF` and `BITOFF` when its weight is 11. -/
theorem Work.verify256_eq :
    r.verify256 D sc =
      { r with
        cs := columnSum D
        le := linesEven D
        lo := linesOdd D
        ce := columnsEven (columnSum D)
        co := columnsOdd (columnSum D)
        i := 8
        cc := codeOf D
        sc := sc
        sy := (codeOf D).xor sc
        w := if (codeOf D).xor sc = Code.zero then r.w else popcnt24 ((codeOf D).xor sc)
        byteOff :=
          if classify ((codeOf D).xor sc) = .singleBitCorrected then byteOffset ((codeOf D).xor sc) else r.byteOff
        bitOff :=
          if classify ((codeOf D).xor sc) = .singleBitCorrected then bitOffset ((codeOf D).xor sc) else r.bitOff } := by
  unfold Work.verify256 Work.locate
  rw [Work.weigh_sy, Work.syndrome_sy]
  unfold Work.weigh
  rw [Work.syndrome_sy]
  unfold Work.syndrome
  rw [Work.compute256_cc, Work.compute256_eq]
  split <;> split <;> rfl

end

theorem classify_zero : classify Code.zero = .noError := rfl

/-- NoError means the all-zero syndrome (R163). -/
theorem classify_eq_noError {sy : Code} : classify sy = .noError ↔ sy = Code.zero := by
  unfold classify
  split
  · simp_all
  · split
    · simp_all
    · split <;> simp_all

/-- SingleBitCorrected means weight 11 (R165). -/
theorem classify_eq_single {sy : Code} : classify sy = .singleBitCorrected ↔ popcnt24 sy = 11 := by
  unfold classify
  split
  · rename_i h
    subst h
    simp
    decide
  · split
    · simp_all
    · split <;> simp_all

/-- EccCorrupted means weight 1 (R166). -/
theorem classify_eq_ecc {sy : Code} : classify sy = .eccCorrupted ↔ popcnt24 sy = 1 := by
  unfold classify
  split
  · rename_i h
    subst h
    simp
    decide
  · split
    · simp_all
    · split <;> simp_all

/-- There is at most one write, and it lies in the block (R168). -/
theorem correction_length (D : Nat → Byte) (dp : Nat) (sy : Code) : (correction D dp sy).length ≤ 1 := by
  unfold correction
  split <;> simp

theorem correction_mem {D : Nat → Byte} {dp : Nat} {sy : Code} {w : Host.Cell} (h : w ∈ correction D dp sy) :
    classify sy = .singleBitCorrected ∧
      w = (dp + (byteOffset sy).toNat, flipBit (D (byteOffset sy).toNat) (bitOffset sy).toNat) := by
  unfold correction at h
  split at h
  · rename_i hc
    exact ⟨hc, by simpa using h⟩
  · simp at h

end Sys2Proof.Machine
end

