-- ==== Sys2Proof/Laws/Decode.lean ====
section
/-! SUPPORT. The bytes of a packed command and the names of the decoder: small facts, each said once. -/

namespace Sys2Proof

@[simp] theorem toBytesLE_length (n w : Nat) : (toBytesLE n w).length = n := by
  induction n generalizing w with
  | zero => rfl
  | succ n ih => simp [toBytesLE, ih]

theorem ofBytesLE_toBytesLE (n w : Nat) : ofBytesLE (toBytesLE n w) = w % 256 ^ n := by
  induction n generalizing w with
  | zero => simp [toBytesLE, ofBytesLE, Nat.mod_one]
  | succ n ih =>
    rw [toBytesLE, ofBytesLE, ih, pow_succ, Nat.mul_comm (256 ^ n), Nat.mod_mul]
    simp

theorem toBytesLE_ofBytesLE (bs : List Byte) : toBytesLE bs.length (ofBytesLE bs) = bs := by
  induction bs with
  | nil => rfl
  | cons b bs ih =>
    have hb := b.isLt
    have hd : (b.toNat + 256 * ofBytesLE bs) / 256 = ofBytesLE bs := by omega
    simp only [List.length_cons, toBytesLE, ofBytesLE, hd, ih, List.cons.injEq, and_true]
    apply BitVec.eq_of_toNat_eq
    simp
    omega

/-- The packed form fits its bytes. -/
theorem two_pow_packedBits_le (p : Params) : 2 ^ p.packedBits ≤ 256 ^ p.packedBytes := by
  rw [show (256 : Nat) = 2 ^ 8 from rfl, ← pow_mul]
  apply Nat.pow_le_pow_right (by omega)
  unfold Params.packedBytes
  omega

/-- The fields a word is unpacked into fit their widths. -/
theorem unpackCommand_wellFormed (p : Params) (w : Nat) : (unpackCommand p w).WellFormed p :=
  ⟨Nat.mod_lt _ (Nat.two_pow_pos _), Nat.mod_lt _ (Nat.two_pow_pos _), Nat.mod_lt _ (Nat.two_pow_pos _)⟩

/-- The instruction a command is, is issued as that command (R105). -/
@[simp] theorem instrOf_command (c : Command) : (instrOf c).command = some c := by
  obtain ⟨op, len, d, cb⟩ := c
  cases op <;> simp only [instrOf] <;> split <;> simp [Instr.command, *]

/-- What the decoder answers is a command that fits its fields. -/
theorem decodeCommand_wellFormed {p : Params} {bs : List Byte} {c : Command} (h : decodeCommand p bs = .ok c) :
    c.WellFormed p := by
  unfold decodeCommand at h
  split at h
  · cases h
  · split at h
    · cases h
    · injection h with h
      exact h ▸ unpackCommand_wellFormed p _

/-- The decoder's instruction is issued as the decoder's command. -/
theorem decode_command {p : Params} {bs : List Byte} {i : Instr} (h : decode p bs = .ok i) :
    ∃ c, decodeCommand p bs = .ok c ∧ i.command = some c := by
  unfold decode at h
  split at h
  · rename_i c hc
    injection h with h
    exact ⟨c, hc, h ▸ instrOf_command c⟩
  · cases h

end Sys2Proof
end

