-- ==== Sys2Proof/Laws/Memory.lean ====
section
/-! SUPPORT. MemRead and MemWrite: a read after a write, the frame of a write, the canonical form, and that equal
reads make equal memories. -/

namespace Sys2Proof.Machine

@[simp] theorem Memory.read_nil (a : Nat) : Memory.read [] a = Memory.unwritten := rfl

theorem Memory.read_cons (b : Nat) (v : Byte) (m : List Host.Cell) (a : Nat) :
    Memory.read ((b, v) :: m) a = if b = a then v else Memory.read m a := rfl

/-- An address that is listed nowhere reads as unwritten. -/
theorem Memory.read_of_unlisted {m : List Host.Cell} {a : Nat} (h : ∀ c ∈ m, c.1 ≠ a) :
    Memory.read m a = Memory.unwritten := by
  induction m with
  | nil => rfl
  | cons c m ih =>
    obtain ⟨b, v⟩ := c
    have hb : b ≠ a := h (b, v) (by simp)
    rw [Memory.read_cons, if_neg hb]
    exact ih fun c hc => h c (by simp [hc])

/-- A listed entry of a list without repeats is what its address reads as. -/
theorem Memory.read_of_mem {m : List Host.Cell} (hm : m.Pairwise (fun c d => c.1 < d.1)) {a : Nat} {v : Byte}
    (h : (a, v) ∈ m) : Memory.read m a = v := by
  induction m with
  | nil => simp at h
  | cons c m ih =>
    obtain ⟨b, u⟩ := c
    rw [List.pairwise_cons] at hm
    rcases List.mem_cons.mp h with h | h
    · obtain ⟨rfl, rfl⟩ := Prod.mk.inj h
      simp [Memory.read_cons]
    · have hlt : b < a := hm.1 _ h
      rw [Memory.read_cons, if_neg (by omega)]
      exact ih hm.2 h

theorem Memory.mem_erase {m : List Host.Cell} {a : Nat} {c : Host.Cell} :
    c ∈ Memory.erase m a ↔ c ∈ m ∧ c.1 ≠ a := by
  simp [Memory.erase]

theorem Memory.read_erase (m : List Host.Cell) (a x : Nat) :
    Memory.read (Memory.erase m a) x = if x = a then Memory.unwritten else Memory.read m x := by
  induction m with
  | nil => simp [Memory.erase]
  | cons c m ih =>
    obtain ⟨b, v⟩ := c
    by_cases hb : b = a
    · subst hb
      have : Memory.erase ((b, v) :: m) b = Memory.erase m b := by simp [Memory.erase]
      rw [this, ih, Memory.read_cons]
      by_cases hx : x = b <;> simp [hx, eq_comm (a := b) (b := x)]
    · have : Memory.erase ((b, v) :: m) a = (b, v) :: Memory.erase m a := by simp [Memory.erase, hb]
      rw [this, Memory.read_cons, Memory.read_cons, ih]
      by_cases hx : x = a
      · subst hx
        simp [hb]
      · simp [hx]

theorem Memory.mem_insert {m : List Host.Cell} {a : Nat} {v : Byte} {c : Host.Cell} :
    c ∈ Memory.insert m a v ↔ c = (a, v) ∨ c ∈ m := by
  induction m with
  | nil => simp [Memory.insert]
  | cons d m ih =>
    obtain ⟨b, u⟩ := d
    by_cases h : a < b
    · simp [Memory.insert, h]
    · simp only [Memory.insert, h, if_false, List.mem_cons, ih]
      tauto

theorem Memory.read_insert {m : List Host.Cell} {a : Nat} (h : ∀ c ∈ m, c.1 ≠ a) (v : Byte) (x : Nat) :
    Memory.read (Memory.insert m a v) x = if x = a then v else Memory.read m x := by
  induction m with
  | nil =>
    by_cases hx : x = a <;> simp [Memory.insert, Memory.read_cons, hx, eq_comm (a := a) (b := x)]
  | cons d m ih =>
    obtain ⟨b, u⟩ := d
    have hb : b ≠ a := h (b, u) (by simp)
    by_cases hlt : a < b
    · simp only [Memory.insert, hlt, if_true]
      rw [Memory.read_cons]
      by_cases hx : x = a <;> simp [hx, eq_comm (a := a) (b := x)]
    · simp only [Memory.insert, hlt, if_false]
      rw [Memory.read_cons, Memory.read_cons, ih fun c hc => h c (by simp [hc])]
      by_cases hx : x = a
      · subst hx
        simp [hb]
      · simp [hx]

/-- A read after a write: the byte addressed has the value written, every other byte is as before (R56). -/
theorem Memory.read_write (m : List Host.Cell) (a : Nat) (v : Byte) (x : Nat) :
    Memory.read (Memory.write m a v) x = if x = a then v else Memory.read m x := by
  unfold Memory.write
  split
  · rename_i hv
    rw [Memory.read_erase, hv]
  · rw [Memory.read_insert (fun c hc => (Memory.mem_erase.mp hc).2), Memory.read_erase]
    by_cases hx : x = a <;> simp [hx]

@[simp] theorem Memory.read_write_same (m : List Host.Cell) (a : Nat) (v : Byte) :
    Memory.read (Memory.write m a v) a = v := by
  simp [Memory.read_write]

theorem Memory.read_write_of_ne {a x : Nat} (h : x ≠ a) (m : List Host.Cell) (v : Byte) :
    Memory.read (Memory.write m a v) x = Memory.read m x := by
  simp [Memory.read_write, h]

theorem Memory.pairwise_insert {m : List Host.Cell} {a : Nat} {v : Byte}
    (hm : m.Pairwise (fun c d => c.1 < d.1)) (h : ∀ c ∈ m, c.1 ≠ a) :
    (Memory.insert m a v).Pairwise (fun c d => c.1 < d.1) := by
  induction m with
  | nil => simp [Memory.insert]
  | cons d m ih =>
    obtain ⟨b, u⟩ := d
    rw [List.pairwise_cons] at hm
    have hb : b ≠ a := h (b, u) (by simp)
    by_cases hlt : a < b
    · simp only [Memory.insert, hlt, if_true, List.pairwise_cons, List.mem_cons]
      refine ⟨fun c hc => ?_, hm⟩
      rcases hc with rfl | hc
      · exact hlt
      · exact lt_trans hlt (hm.1 c hc)
    · simp only [Memory.insert, hlt, if_false, List.pairwise_cons]
      refine ⟨fun c hc => ?_, ih hm.2 fun c hc => h c (by simp [hc])⟩
      rcases Memory.mem_insert.mp hc with rfl | hc
      · show b < a
        omega
      · exact hm.1 c hc

/-- A write keeps the canonical form. -/
theorem Memory.wf_write {m : List Host.Cell} (hm : Memory.wf m) (a : Nat) (v : Byte) :
    Memory.wf (Memory.write m a v) := by
  have he : Memory.wf (Memory.erase m a) :=
    ⟨hm.1.filter _, fun c hc => hm.2 c (Memory.mem_erase.mp hc).1⟩
  unfold Memory.write
  split
  · exact he
  · rename_i hv
    refine ⟨Memory.pairwise_insert he.1 fun c hc => (Memory.mem_erase.mp hc).2, fun c hc => ?_⟩
    rcases Memory.mem_insert.mp hc with rfl | hc
    · exact hv
    · exact he.2 c hc

/-- What a write lists was listed before, or is the byte written. -/
theorem Memory.mem_write {m : List Host.Cell} {a : Nat} {v : Byte} {c : Host.Cell}
    (h : c ∈ Memory.write m a v) : c = (a, v) ∨ c ∈ m := by
  unfold Memory.write at h
  split at h
  · exact .inr (Memory.mem_erase.mp h).1
  · rcases Memory.mem_insert.mp h with h | h
    · exact .inl h
    · exact .inr (Memory.mem_erase.mp h).1

/-- Two memories in canonical form that read the same everywhere are equal. -/
theorem Memory.ext_of_wf {m m' : List Host.Cell} (hm : Memory.wf m) (hm' : Memory.wf m')
    (h : ∀ a, Memory.read m a = Memory.read m' a) : m = m' := by
  have key : ∀ {m m' : List Host.Cell}, Memory.wf m → Memory.wf m' →
      (∀ a, Memory.read m a = Memory.read m' a) → ∀ c ∈ m, c ∈ m' := by
    intro m m' hm hm' h c hc
    obtain ⟨a, v⟩ := c
    have hv : Memory.read m' a = v := by rw [← h a, Memory.read_of_mem hm.1 hc]
    by_contra hn
    have hno : ∀ d ∈ m', d.1 ≠ a := by
      intro d hd he
      obtain ⟨b, u⟩ := d
      obtain rfl : b = a := he
      rw [Memory.read_of_mem hm'.1 hd] at hv
      exact hn (hv ▸ hd)
    rw [Memory.read_of_unlisted hno] at hv
    exact hm.2 _ hc hv.symm
  have hirr : ∀ {l : List Host.Cell}, l.Pairwise (fun c d => c.1 < d.1) → l.Nodup := by
    intro l hl
    exact hl.imp fun {c d} hcd he => by subst he; exact lt_irrefl _ hcd
  have hp : m.Perm m' := (List.perm_ext_iff_of_nodup (hirr hm.1) (hirr hm'.1)).mpr fun c =>
    ⟨key hm hm' h c, key hm' hm (fun a => (h a).symm) c⟩
  exact hp.eq_of_pairwise (fun c d _ _ hcd hdc => absurd (lt_trans hcd hdc) (lt_irrefl _)) hm.1 hm'.1

@[simp] theorem Memory.writeAll_nil (m : List Host.Cell) : Memory.writeAll m [] = m := rfl

@[simp] theorem Memory.writeAll_cons (m : List Host.Cell) (w : Host.Cell) (ws : List Host.Cell) :
    Memory.writeAll m (w :: ws) = Memory.writeAll (Memory.write m w.1 w.2) ws := rfl

theorem Memory.wf_writeAll {m : List Host.Cell} (hm : Memory.wf m) (ws : List Host.Cell) :
    Memory.wf (Memory.writeAll m ws) := by
  induction ws generalizing m with
  | nil => exact hm
  | cons w ws ih => exact ih (Memory.wf_write hm w.1 w.2)

theorem Memory.mem_writeAll {m ws : List Host.Cell} {c : Host.Cell}
    (h : c ∈ Memory.writeAll m ws) : c ∈ ws ∨ c ∈ m := by
  induction ws generalizing m with
  | nil => exact .inr h
  | cons w ws ih =>
    rcases ih h with h | h
    · exact .inl (by simp [h])
    · rcases Memory.mem_write h with rfl | h
      · exact .inl (by simp)
      · exact .inr h

/-- The frame of several writes: an address that is written by none reads as before. -/
theorem Memory.read_writeAll_of_unwritten {ws : List Host.Cell} {x : Nat} (h : ∀ w ∈ ws, w.1 ≠ x)
    (m : List Host.Cell) : Memory.read (Memory.writeAll m ws) x = Memory.read m x := by
  induction ws generalizing m with
  | nil => rfl
  | cons w ws ih =>
    rw [Memory.writeAll_cons, ih (fun v hv => h v (by simp [hv])),
      Memory.read_write_of_ne (h w (by simp)).symm]

/-- Several writes take effect the same way on memories that read the same. -/
theorem Memory.read_writeAll_congr {m m' : List Host.Cell} {x : Nat} (h : Memory.read m x = Memory.read m' x)
    (ws : List Host.Cell) : Memory.read (Memory.writeAll m ws) x = Memory.read (Memory.writeAll m' ws) x := by
  induction ws generalizing m m' with
  | nil => exact h
  | cons w ws ih =>
    refine ih ?_
    rw [Memory.read_write, Memory.read_write, h]

end Sys2Proof.Machine
end

