-- ==== Sys2Proof/Laws/Operands.lean ====
section
/-! SUPPORT. Regions of addresses: what they contain and when two have no byte in common. -/

namespace Sys2Proof.Machine

@[simp] theorem Region.contains_iff {r : Region} {a : Nat} :
    r.contains a = true ↔ r.base ≤ a ∧ a < r.base + r.size := by
  simp [Region.contains]

theorem Region.contains_eq_false {r : Region} {a : Nat} :
    r.contains a = false ↔ a < r.base ∨ r.base + r.size ≤ a := by
  rw [← Bool.not_eq_true, Region.contains_iff]
  omega

/-- `disjoint` says exactly that no address lies in both regions. -/
theorem Region.disjoint_iff {r q : Region} :
    r.disjoint q = true ↔ ∀ a, r.contains a = true → q.contains a = true → False := by
  simp only [Region.disjoint, Bool.or_eq_true, beq_iff_eq, decide_eq_true_eq, Region.contains_iff]
  constructor
  · omega
  · intro h
    by_contra hn
    exact h (max r.base q.base) (by omega) (by omega)

theorem Region.disjoint_comm (r q : Region) : r.disjoint q = q.disjoint r := by
  rw [Bool.eq_iff_iff, Region.disjoint_iff, Region.disjoint_iff]
  exact ⟨fun h a hq hr => h a hr hq, fun h a hr hq => h a hq hr⟩

/-- A legal length in numbers. -/
theorem legalLength_iff {len : Nat} : legalLength len = true ↔ len % 256 = 0 ∧ 1 ≤ blocks len := by
  simp [legalLength]

theorem len_of_legal {len : Nat} (h : legalLength len = true) : len = 256 * blocks len := by
  have := (legalLength_iff.mp h).1
  unfold blocks
  omega

end Sys2Proof.Machine

namespace Sys2Proof

open Machine

theorem Command.wraps_eq_false {p : Params} {c : Command} :
    c.wraps p = false ↔ c.dbase + c.len ≤ 2 ^ p.aw ∧ c.cbase + 3 * blocks c.len ≤ 2 ^ p.aw := by
  simp [Command.wraps]

theorem Command.overlaps_eq_false {c : Command} :
    c.overlaps = false ↔ ∀ a, c.dataBuffer.contains a = true → c.codeBuffer.contains a = true → False := by
  rw [Command.overlaps, Bool.not_eq_false', Region.disjoint_iff]

theorem Command.uses_iff {c : Command} {a : Nat} :
    c.uses a = true ↔ c.dataBuffer.contains a = true ∨ c.codeBuffer.contains a = true := by
  rw [Command.uses, Bool.or_eq_true]

/-- What a command may write is one of its buffers (R60). -/
theorem Command.uses_of_written {c : Command} {a : Nat} (h : c.written.contains a = true) : c.uses a = true := by
  rw [Command.uses_iff]
  unfold Command.written at h
  split at h
  · exact .inr h
  · exact .inl h

theorem Command.meets_iff {c : Command} {r : Region} :
    c.meets r = true ↔ ∃ a, r.contains a = true ∧ c.uses a = true := by
  have key : ∀ q : Region, (!r.disjoint q) = true ↔ ∃ a, r.contains a = true ∧ q.contains a = true := by
    intro q
    rw [Bool.not_eq_true', ← Bool.not_eq_true, Region.disjoint_iff]
    push Not
    simp
  simp only [Command.meets, Bool.or_eq_true, key, Command.uses_iff, and_or_left, exists_or]

theorem Command.touches_iff {c : Command} {rs : List Region} :
    c.touches rs = true ↔ ∃ r ∈ rs, ∃ a, r.contains a = true ∧ c.uses a = true := by
  simp only [Command.touches, List.any_eq_true, Command.meets_iff]

theorem Command.shares_iff {c q : Command} :
    c.shares q = true ↔ ∃ a, c.uses a = true ∧ q.uses a = true := by
  simp only [Command.shares, Bool.or_eq_true, Command.meets_iff, Command.uses_iff (c := c), or_and_right, exists_or]

/-- In conflict: a byte of both, and a VERIFY, or one that may write that byte (R72, U3). -/
theorem Command.conflicts_iff {c q : Command} :
    c.conflicts q = true ↔
      ∃ a, c.uses a = true ∧ q.uses a = true ∧
        (c.op = .verify ∨ q.op = .verify ∨ c.written.contains a = true ∨ q.written.contains a = true) := by
  simp only [Command.conflicts, Bool.or_eq_true, Bool.and_eq_true, beq_iff_eq, Command.shares_iff, Command.meets_iff]
  constructor
  · rintro ((⟨hv, a, hc, hq⟩ | ⟨a, hw, hq⟩) | ⟨a, hw, hc⟩)
    · exact ⟨a, hc, hq, hv.elim .inl fun h => .inr (.inl h)⟩
    · exact ⟨a, Command.uses_of_written hw, hq, .inr (.inr (.inl hw))⟩
    · exact ⟨a, hc, Command.uses_of_written hw, .inr (.inr (.inr hw))⟩
  · rintro ⟨a, hc, hq, hv | hv | hw | hw⟩
    · exact .inl (.inl ⟨.inl hv, a, hc, hq⟩)
    · exact .inl (.inl ⟨.inr hv, a, hc, hq⟩)
    · exact .inl (.inr ⟨a, hw, hq⟩)
    · exact .inr ⟨a, hw, hc⟩

theorem Command.conflicts_comm (c q : Command) : c.conflicts q = q.conflicts c := by
  rw [Bool.eq_iff_iff, Command.conflicts_iff, Command.conflicts_iff]
  exact ⟨fun ⟨a, hc, hq, h⟩ => ⟨a, hq, hc, by tauto⟩, fun ⟨a, hc, hq, h⟩ => ⟨a, hq, hc, by tauto⟩⟩

/-- Commands that are not in conflict: what one may write, the other does not use, and a VERIFY shares nothing. -/
theorem Command.conflicts_eq_false {c q : Command} :
    c.conflicts q = false ↔
      (∀ a, c.written.contains a = true → q.uses a = false) ∧
      (∀ a, q.written.contains a = true → c.uses a = false) ∧
      (c.op = .verify ∨ q.op = .verify → ∀ a, c.uses a = true → q.uses a = false) := by
  rw [← Bool.not_eq_true, Command.conflicts_iff]
  constructor
  · intro h
    refine ⟨fun a hw => ?_, fun a hw => ?_, fun hv a hc => ?_⟩ <;> rw [← Bool.not_eq_true]
    · exact fun hq => h ⟨a, Command.uses_of_written hw, hq, .inr (.inr (.inl hw))⟩
    · exact fun hc => h ⟨a, hc, Command.uses_of_written hw, .inr (.inr (.inr hw))⟩
    · exact fun hq => h ⟨a, hc, hq, hv.elim .inl fun h => .inr (.inl h)⟩
  · rintro ⟨h1, h2, h3⟩ ⟨a, hc, hq, hv | hv | hw | hw⟩
    · exact absurd hq (by simp [h3 (.inl hv) a hc])
    · exact absurd hq (by simp [h3 (.inr hv) a hc])
    · exact absurd hq (by simp [h1 a hw])
    · exact absurd hc (by simp [h2 a hw])

end Sys2Proof
end

