-- ==== Sys2Proof/Laws/PerInstr.lean ====
section
/-! SUPPORT. Statements made per instruction, one lemma per constructor. -/

namespace Sys2Proof.Laws.EncodeLength

/-- There is one instruction length (R100): whatever has an encoding has it in the bytes of the packed form. -/
def Statement (i : Instr) : Prop := ∀ (p : Params) (bs : List Byte), encode p i = some bs → bs.length = p.packedBytes

theorem of_command {i : Instr} {c : Command} (hc : i.command = some c) : Statement i := by
  intro p bs h
  simp only [encode, hc, Option.map_some, Option.some.injEq] at h
  rw [← h, encodeCommand, toBytesLE_length]

theorem compute (len dbase cbase : Nat) : Statement (.compute len dbase cbase) := of_command rfl
theorem verify (len dbase cbase : Nat) : Statement (.verify len dbase cbase) := of_command rfl
theorem compute256 (dbase cbase : Nat) : Statement (.compute256 dbase cbase) := of_command rfl
theorem verify256 (dbase cbase : Nat) : Statement (.verify256 dbase cbase) := of_command rfl
/-- POPCNT8 has no encoding (R101). -/
theorem popcnt8 (v : Byte) : Statement (.popcnt8 v) := fun _ _ h => by cases h

end Sys2Proof.Laws.EncodeLength
end

