-- ==== Sys2Proof/Laws/State.lean ====
section
/-! SUPPORT. One lemma per field per update of an engine's registers and of the state, each true by unfolding, so that
no proof unfolds a record update. -/

namespace Sys2Proof.Machine

section
/-! `Engine.respond` -/
variable (e : Engine) (err : Bool) (cls : Classification)

@[simp] theorem Engine.respond_work : (e.respond err cls).work = e.work := rfl
@[simp] theorem Engine.respond_blk : (e.respond err cls).blk = e.blk := rfl
@[simp] theorem Engine.respond_dp : (e.respond err cls).dp = e.dp := rfl
@[simp] theorem Engine.respond_cp : (e.respond err cls).cp = e.cp := rfl
@[simp] theorem Engine.respond_n : (e.respond err cls).n = e.n := rfl
@[simp] theorem Engine.respond_corr : (e.respond err cls).corr = e.corr := rfl
@[simp] theorem Engine.respond_cmd : (e.respond err cls).cmd = e.cmd := rfl
@[simp] theorem Engine.respond_err : (e.respond err cls).err = err := rfl
@[simp] theorem Engine.respond_cls : (e.respond err cls).cls = cls := rfl
@[simp] theorem Engine.respond_busy : (e.respond err cls).busy = false := rfl
@[simp] theorem Engine.respond_waiting : (e.respond err cls).waiting = e.waiting := rfl

end

section
/-! `Engine.raiseLengthError` -/
variable (e : Engine) (c : Command)

@[simp] theorem Engine.raiseLengthError_work : (e.raiseLengthError c).work = e.work := rfl
@[simp] theorem Engine.raiseLengthError_blk : (e.raiseLengthError c).blk = e.blk := rfl
@[simp] theorem Engine.raiseLengthError_dp : (e.raiseLengthError c).dp = e.dp := rfl
@[simp] theorem Engine.raiseLengthError_cp : (e.raiseLengthError c).cp = e.cp := rfl
@[simp] theorem Engine.raiseLengthError_n : (e.raiseLengthError c).n = e.n := rfl
@[simp] theorem Engine.raiseLengthError_corr : (e.raiseLengthError c).corr = e.corr := rfl
@[simp] theorem Engine.raiseLengthError_cmd : (e.raiseLengthError c).cmd = c := rfl
@[simp] theorem Engine.raiseLengthError_err : (e.raiseLengthError c).err = true := rfl
@[simp] theorem Engine.raiseLengthError_cls : (e.raiseLengthError c).cls = .noError := rfl
@[simp] theorem Engine.raiseLengthError_busy : (e.raiseLengthError c).busy = false := rfl
@[simp] theorem Engine.raiseLengthError_waiting : (e.raiseLengthError c).waiting = e.waiting := rfl

end

section
/-! `Engine.advance` -/
variable (p : Params) (e : Engine)

@[simp] theorem Engine.advance_work : (e.advance p).work = e.work := rfl
@[simp] theorem Engine.advance_blk : (e.advance p).blk = e.blk + 1 := rfl
@[simp] theorem Engine.advance_dp : (e.advance p).dp = (e.dp + 256) % 2 ^ p.aw := rfl
@[simp] theorem Engine.advance_cp : (e.advance p).cp = (e.cp + 3) % 2 ^ p.aw := rfl
@[simp] theorem Engine.advance_n : (e.advance p).n = e.n := rfl
@[simp] theorem Engine.advance_corr : (e.advance p).corr = e.corr := rfl
@[simp] theorem Engine.advance_cmd : (e.advance p).cmd = e.cmd := rfl
@[simp] theorem Engine.advance_err : (e.advance p).err = e.err := rfl
@[simp] theorem Engine.advance_cls : (e.advance p).cls = e.cls := rfl
@[simp] theorem Engine.advance_busy : (e.advance p).busy = e.busy := rfl
@[simp] theorem Engine.advance_waiting : (e.advance p).waiting = e.waiting := rfl

end

section
/-! `Engine.enqueue` -/
variable (e : Engine) (c : Command)

@[simp] theorem Engine.enqueue_work : (e.enqueue c).work = e.work := rfl
@[simp] theorem Engine.enqueue_blk : (e.enqueue c).blk = e.blk := rfl
@[simp] theorem Engine.enqueue_dp : (e.enqueue c).dp = e.dp := rfl
@[simp] theorem Engine.enqueue_cp : (e.enqueue c).cp = e.cp := rfl
@[simp] theorem Engine.enqueue_n : (e.enqueue c).n = e.n := rfl
@[simp] theorem Engine.enqueue_corr : (e.enqueue c).corr = e.corr := rfl
@[simp] theorem Engine.enqueue_cmd : (e.enqueue c).cmd = e.cmd := rfl
@[simp] theorem Engine.enqueue_err : (e.enqueue c).err = e.err := rfl
@[simp] theorem Engine.enqueue_cls : (e.enqueue c).cls = e.cls := rfl
@[simp] theorem Engine.enqueue_busy : (e.enqueue c).busy = e.busy := rfl
@[simp] theorem Engine.enqueue_waiting : (e.enqueue c).waiting = e.waiting ++ [c] := rfl

end

section
/-! `Engine.start` -/
variable (e : Engine) (c : Command)

@[simp] theorem Engine.start_work : (e.start c).work = e.work := rfl
@[simp] theorem Engine.start_blk : (e.start c).blk = 0 := rfl
@[simp] theorem Engine.start_dp : (e.start c).dp = c.dbase := rfl
@[simp] theorem Engine.start_cp : (e.start c).cp = c.cbase := rfl
@[simp] theorem Engine.start_n : (e.start c).n = blocks c.len := rfl
@[simp] theorem Engine.start_corr : (e.start c).corr = corrAtStart c.op e.corr := rfl
@[simp] theorem Engine.start_cmd : (e.start c).cmd = c := rfl
@[simp] theorem Engine.start_err : (e.start c).err = e.err := rfl
@[simp] theorem Engine.start_cls : (e.start c).cls = e.cls := rfl
@[simp] theorem Engine.start_busy : (e.start c).busy = true := rfl
@[simp] theorem Engine.start_waiting : (e.start c).waiting = e.waiting := rfl

end

section
/-! `State.finish` -/
variable (s : State)

@[simp] theorem State.finish_params : (s.finish).params = s.params := rfl
@[simp] theorem State.finish_eng : (s.finish).eng = s.eng.respond false (finalClass s.eng.cmd.op s.eng.corr) := rfl
@[simp] theorem State.finish_others : (s.finish).others = s.others := rfl
@[simp] theorem State.finish_mem : (s.finish).mem = s.mem := rfl
@[simp] theorem State.finish_nonStorage : (s.finish).nonStorage = s.nonStorage := rfl
@[simp] theorem State.finish_inputs : (s.finish).inputs = s.inputs := rfl
@[simp] theorem State.finish_popOut : (s.finish).popOut = s.popOut := rfl
@[simp] theorem State.finish_hostData : (s.finish).hostData = s.hostData := rfl

end

section
/-! `State.slice` -/
variable (s : State)

@[simp] theorem State.slice_params : (s.slice).params = s.params := rfl
@[simp] theorem State.slice_others : (s.slice).others = s.others := rfl
@[simp] theorem State.slice_mem : (s.slice).mem = Memory.writeAll s.mem (s.eng.sliceWrites s.mem) := rfl
@[simp] theorem State.slice_nonStorage : (s.slice).nonStorage = s.nonStorage := rfl
@[simp] theorem State.slice_inputs : (s.slice).inputs = s.inputs := rfl
@[simp] theorem State.slice_popOut : (s.slice).popOut = s.popOut := rfl
@[simp] theorem State.slice_hostData : (s.slice).hostData = s.hostData := rfl

end

section
/-! `State.resetEngine` -/
variable (s : State) (made : Nat)

@[simp] theorem State.resetEngine_params : (s.resetEngine made).params = s.params := rfl
@[simp] theorem State.resetEngine_eng : (s.resetEngine made).eng = { Engine.reset with waiting := s.eng.waiting } := rfl
@[simp] theorem State.resetEngine_others : (s.resetEngine made).others = s.others := rfl
@[simp] theorem State.resetEngine_nonStorage : (s.resetEngine made).nonStorage = s.nonStorage := rfl
@[simp] theorem State.resetEngine_inputs : (s.resetEngine made).inputs = s.inputs := rfl
@[simp] theorem State.resetEngine_popOut : (s.resetEngine made).popOut = s.popOut := rfl
@[simp] theorem State.resetEngine_hostData : (s.resetEngine made).hostData = s.hostData := rfl

end

end Sys2Proof.Machine
end

