-- ==== Sys2Proof/Laws/Scan.lean ====
section
/-! SUPPORT. What one slice, the scan, acceptance and a whole command can do, each said once. -/

namespace Sys2Proof.Machine

/-- A slice without a hard failure: the registers of the slice, and the next slice (R30, R183). -/
theorem State.slice_of_soft {s : State} (h : (s.eng.sliceClass s.mem).hard = false) :
    s.slice.eng =
      Engine.advance s.params
        { s.eng with
          work := s.eng.sliceWork s.mem
          corr := corrAfter (s.eng.sliceClass s.mem) s.eng.corr } := by
  simp [State.slice, h]

/-- A slice with a hard failure: the response at once (R184). -/
theorem State.slice_of_hard {s : State} (h : (s.eng.sliceClass s.mem).hard = true) :
    s.slice.eng =
      Engine.respond
        { s.eng with
          work := s.eng.sliceWork s.mem
          corr := corrAfter (s.eng.sliceClass s.mem) s.eng.corr } false (s.eng.sliceClass s.mem) := by
  simp [State.slice, h]

@[simp] theorem State.slice_cmd (s : State) : s.slice.eng.cmd = s.eng.cmd := by
  unfold State.slice
  dsimp only
  split <;> rfl

@[simp] theorem State.slice_n (s : State) : s.slice.eng.n = s.eng.n := by
  unfold State.slice
  dsimp only
  split <;> rfl

@[simp] theorem State.slice_waiting (s : State) : s.slice.eng.waiting = s.eng.waiting := by
  unfold State.slice
  dsimp only
  split <;> rfl

@[simp] theorem State.slice_work (s : State) : s.slice.eng.work = s.eng.sliceWork s.mem := by
  unfold State.slice
  dsimp only
  split <;> rfl

@[simp] theorem State.slice_corr (s : State) :
    s.slice.eng.corr = corrAfter (s.eng.sliceClass s.mem) s.eng.corr := by
  unfold State.slice
  dsimp only
  split <;> rfl

/-- `BUSY` after a slice: a hard failure ends the command (R184). -/
theorem State.slice_busy (s : State) :
    s.slice.eng.busy = (s.eng.busy && !(s.eng.sliceClass s.mem).hard) := by
  cases h : (s.eng.sliceClass s.mem).hard
  · rw [State.slice_of_soft h]
    simp
  · rw [State.slice_of_hard h]
    simp

/-- A slice of COMPUTE has no hard failure (R152). -/
theorem Engine.sliceClass_compute {e : Engine} (h : e.cmd.op = .compute) (m : List Host.Cell) :
    e.sliceClass m = .noError := by
  simp [Engine.sliceClass, h]

theorem Engine.sliceWork_compute {e : Engine} (h : e.cmd.op = .compute) (m : List Host.Cell) :
    e.sliceWork m = e.work.compute256 (blockAt m e.dp) := by
  simp [Engine.sliceWork, h]

theorem Engine.sliceWrites_compute {e : Engine} (h : e.cmd.op = .compute) (m : List Host.Cell) :
    e.sliceWrites m =
      [(e.cp, (codeOf (blockAt m e.dp)).b0), (e.cp + 1, (codeOf (blockAt m e.dp)).b1),
        (e.cp + 2, (codeOf (blockAt m e.dp)).b2)] := by
  simp [Engine.sliceWrites, Engine.sliceWork_compute h, h]

theorem Engine.sliceWork_verify {e : Engine} (h : e.cmd.op = .verify) (m : List Host.Cell) :
    e.sliceWork m = e.work.verify256 (blockAt m e.dp) (codeAt m e.cp) := by
  simp [Engine.sliceWork, h]

theorem Engine.sliceClass_verify {e : Engine} (h : e.cmd.op = .verify) (m : List Host.Cell) :
    e.sliceClass m = classify ((codeOf (blockAt m e.dp)).xor (codeAt m e.cp)) := by
  simp [Engine.sliceClass, Engine.sliceWork_verify h, h]

theorem Engine.sliceWrites_verify {e : Engine} (h : e.cmd.op = .verify) (m : List Host.Cell) :
    e.sliceWrites m =
      correction (blockAt m e.dp) e.dp ((codeOf (blockAt m e.dp)).xor (codeAt m e.cp)) := by
  simp [Engine.sliceWrites, Engine.sliceWork_verify h, h]

/-- What a slice writes lies in the slice: the three code bytes, or one byte of the block (R60). -/
theorem Engine.sliceWrites_mem {e : Engine} {m : List Host.Cell} {w : Host.Cell} (h : w ∈ e.sliceWrites m) :
    (e.cmd.op = .compute ∧ e.cp ≤ w.1 ∧ w.1 < e.cp + 3) ∨
      (e.cmd.op = .verify ∧ e.dp ≤ w.1 ∧ w.1 < e.dp + 256) := by
  cases hop : e.cmd.op
  · rw [Engine.sliceWrites_compute hop] at h
    refine .inl ⟨rfl, ?_⟩
    simp only [List.mem_cons, List.not_mem_nil, or_false] at h
    rcases h with rfl | rfl | rfl <;> dsimp only <;> omega
  · rw [Engine.sliceWrites_verify hop] at h
    obtain ⟨-, rfl⟩ := correction_mem h
    refine .inr ⟨rfl, ?_⟩
    dsimp only
    have := (byteOffset ((codeOf (blockAt m e.dp)).xor (codeAt m e.cp))).isLt
    omega

/-- The induction over the scan, packaged once: `P k` holds with `k` slices left, and `Q` at the response. -/
theorem scan_rule {P : Nat → State → Prop} {Q : State → Prop}
    (next : ∀ k t, P (k + 1) t → t.slice.eng.busy = true → P k t.slice)
    (abort : ∀ k t, P (k + 1) t → t.slice.eng.busy = false → Q t.slice)
    (done : ∀ t, P 0 t → Q t.finish) :
    ∀ k s, P k s → Q (scan k s) := by
  intro k
  induction k with
  | zero => exact done
  | succ k ih =>
    intro s hs
    unfold scan
    dsimp only
    split
    · rename_i hb
      exact ih _ (next k s hs hb)
    · rename_i hb
      exact abort k s hs (by simpa using hb)

@[simp] theorem scan_zero (s : State) : scan 0 s = s.finish := rfl

theorem scan_succ_of_busy {s : State} (h : s.slice.eng.busy = true) (k : Nat) :
    scan (k + 1) s = scan k s.slice := by
  simp [scan, h]

theorem scan_succ_of_not_busy {s : State} (h : s.slice.eng.busy = false) (k : Nat) :
    scan (k + 1) s = s.slice := by
  simp [scan, h]

/-- The response ends every scan (R247). -/
theorem scan_not_busy (k : Nat) (s : State) : (scan k s).eng.busy = false :=
  scan_rule (P := fun _ _ => True) (Q := fun t => t.eng.busy = false)
    (fun _ _ _ _ => trivial) (fun _ _ _ h => h) (fun _ _ => rfl) k s trivial

/-- Acceptance of a bad length (R203). -/
theorem State.accept_of_illegal {s : State} {c : Command} (h : legalLength c.len = false) :
    s.accept c = .next { s with eng := s.eng.raiseLengthError c } := by
  simp [State.accept, h]

/-- Acceptance of a command that meets the host's duties (R234). -/
theorem State.accept_of_accepts {s : State} {c : Command} (h : s.Accepts c) :
    s.accept c = .next { s with eng := s.eng.start c } := by
  obtain ⟨h1, h2, h3, h4, h5⟩ := h
  simp [State.accept, h1, h2, h3, h4, h5]

/-- Whatever acceptance answers as a next state is one of these two. -/
theorem State.accept_next {s t : State} {c : Command} (h : s.accept c = .next t) :
    (legalLength c.len = false ∧ t = { s with eng := s.eng.raiseLengthError c }) ∨
      (s.Accepts c ∧ t = { s with eng := s.eng.start c }) := by
  unfold State.accept at h
  split at h
  · rename_i h1
    injection h with h
    exact .inl ⟨by simpa using h1, h.symm⟩
  · split at h
    · cases h
    · split at h
      · cases h
      · split at h
        · cases h
        · split at h
          · cases h
          · injection h with h
            exact .inr ⟨⟨by simp_all, by simp_all, by simp_all, by simp_all, by simp_all⟩, h.symm⟩

/-- A command that an idle engine accepts runs to its response. -/
theorem State.runCommand_of_accepts {s : State} {c : Command} (hi : s.eng.idle = true) (h : s.Accepts c) :
    s.runCommand c = .next (scan (blocks c.len) { s with eng := s.eng.start c }) := by
  simp [State.runCommand, hi, State.accept_of_accepts h]

/-- A command with a bad length ends at once (R203). -/
theorem State.runCommand_of_illegal {s : State} {c : Command} (hi : s.eng.idle = true)
    (h : legalLength c.len = false) :
    s.runCommand c = .next { s with eng := s.eng.raiseLengthError c } := by
  simp [State.runCommand, hi, State.accept_of_illegal h]

/-- A command presented to an engine that is not idle waits (R40). -/
theorem State.runCommand_of_not_idle {s : State} {c : Command} (hi : s.eng.idle = false) :
    s.runCommand c = .next { s with eng := s.eng.enqueue c } := by
  simp [State.runCommand, hi]

/-- Whatever a command answers as a next state is one of these three. -/
theorem State.runCommand_next {s t : State} {c : Command} (h : s.runCommand c = .next t) :
    (s.eng.idle = false ∧ t = { s with eng := s.eng.enqueue c }) ∨
      (s.eng.idle = true ∧ legalLength c.len = false ∧ t = { s with eng := s.eng.raiseLengthError c }) ∨
      (s.eng.idle = true ∧ s.Accepts c ∧ t = scan (blocks c.len) { s with eng := s.eng.start c }) := by
  cases hi : s.eng.idle
  · rw [State.runCommand_of_not_idle hi] at h
    injection h with h
    exact .inl ⟨rfl, h.symm⟩
  · refine .inr ?_
    cases ha : s.accept c with
    | fault f => simp [State.runCommand, hi, ha] at h
    | refused r => simp [State.runCommand, hi, ha] at h
    | next u =>
      rcases State.accept_next ha with ⟨hl, -⟩ | ⟨hacc, -⟩
      · rw [State.runCommand_of_illegal hi hl] at h
        injection h with h
        exact .inl ⟨rfl, hl, h.symm⟩
      · rw [State.runCommand_of_accepts hi hacc] at h
        injection h with h
        exact .inr ⟨rfl, hacc, h.symm⟩

/-- An instruction that is a command runs it (R105). -/
theorem exec_of_command {i : Instr} {c : Command} (h : i.command = some c) (s : State) :
    exec i s = s.runCommand c := by
  cases i <;> cases h <;> rfl

end Sys2Proof.Machine
end

