-- ==== Sys2Proof/Laws/Step.lean ====
section
/-! SUPPORT. What one step can do, said once: the inversion of `step` and of each operation it calls. -/

namespace Sys2Proof.Machine

/-- What the engine's own step can answer (R40, R183, R184, R220). -/
theorem State.engineStep_next {s t : State} (h : s.engineStep = .next t) :
    (s.eng.busy = true ∧ s.eng.blk < s.eng.n ∧ t = s.slice) ∨
      (s.eng.busy = true ∧ ¬s.eng.blk < s.eng.n ∧ t = s.finish) ∨
      (s.eng.busy = false ∧ s.eng.waiting = [] ∧ t = s) ∨
      (∃ c cs, s.eng.busy = false ∧ s.eng.waiting = c :: cs ∧
        State.accept { s with eng := { s.eng with waiting := cs } } c = .next t) := by
  unfold State.engineStep at h
  split at h
  · rename_i hb
    injection h with h
    split at h
    · exact .inl ⟨hb, ‹_›, h.symm⟩
    · exact .inr (.inl ⟨hb, ‹_›, h.symm⟩)
  · rename_i hb
    rw [Bool.not_eq_true] at hb
    split at h
    · rename_i hw
      injection h with h
      exact .inr (.inr (.inl ⟨hb, hw, h.symm⟩))
    · rename_i c cs hw
      exact .inr (.inr (.inr ⟨c, cs, hb, hw, h⟩))

/-- A host write that is made changes one byte of memory and nothing else. -/
theorem State.hostWrite_next {s t : State} {a : Nat} {v : Byte} (h : s.hostWrite a v = .next t) :
    a < 2 ^ s.params.aw ∧ s.noStorageAt a = false ∧ s.ownedForWrite a = false ∧
      t = { s with mem := Memory.write s.mem a v } := by
  unfold State.hostWrite at h
  split at h
  · cases h
  · split at h
    · cases h
    · split at h
      · cases h
      · injection h with h
        exact ⟨by omega, by simp_all, by simp_all, h.symm⟩

/-- A host read that is made shows one byte to the host and changes nothing else. -/
theorem State.hostRead_next {s t : State} {a : Nat} (h : s.hostRead a = .next t) :
    a < 2 ^ s.params.aw ∧ s.noStorageAt a = false ∧ s.ownedForRead a = false ∧
      t = { s with hostData := Memory.read s.mem a } := by
  unfold State.hostRead at h
  split at h
  · cases h
  · split at h
    · cases h
    · split at h
      · cases h
      · injection h with h
        exact ⟨by omega, by simp_all, by simp_all, h.symm⟩

/-- A change to another instance exchanges the two. -/
theorem State.switchEngine_next {s t : State} {k : Nat} (h : s.switchEngine k = .next t) :
    ∃ e, s.others[k]? = some e ∧ t = { s with eng := e, others := s.others.set k s.eng } := by
  unfold State.switchEngine at h
  split at h
  · rename_i e he
    injection h with h
    exact ⟨e, he, h.symm⟩
  · cases h

/-- A command that is presented waits. -/
theorem State.presentCommand_next {s t : State} {bs : List Byte} (h : s.presentCommand bs = .next t) :
    ∃ c, decodeCommand s.params bs = .ok c ∧ t = { s with eng := s.eng.enqueue c } := by
  unfold State.presentCommand at h
  split at h
  · rename_i c hc
    injection h with h
    exact ⟨c, hc, h.symm⟩
  · cases h

/-- What one step can answer: one case per input of the world outside, and the step without an input. -/
theorem step_next {s t : State} (h : step s = .next t) :
    (s.inputs = [] ∧ s.engineStep = .next t) ∨
      ∃ input rest, s.inputs = input :: rest ∧
        ((∃ bs i, input = .run bs ∧ decode s.params bs = .ok i ∧ exec i { s with inputs := rest } = .next t) ∨
          (∃ bs, input = .present bs ∧ State.presentCommand { s with inputs := rest } bs = .next t) ∨
          (input = .tick ∧ State.engineStep { s with inputs := rest } = .next t) ∨
          (∃ a v, input = .write a v ∧ State.hostWrite { s with inputs := rest } a v = .next t) ∨
          (∃ a, input = .read a ∧ State.hostRead { s with inputs := rest } a = .next t) ∨
          (∃ made, input = .reset made ∧ t = State.resetEngine { s with inputs := rest } made) ∨
          (∃ k, input = .switch k ∧ State.switchEngine { s with inputs := rest } k = .next t)) := by
  unfold step at h
  split at h
  · exact .inl ⟨‹_›, h⟩
  · rename_i input rest hin
    refine .inr ⟨input, rest, hin, ?_⟩
    cases input with
    | run bs =>
      dsimp only at h
      split at h
      · exact .inl ⟨bs, _, rfl, ‹_›, h⟩
      · cases h
    | present bs => exact .inr (.inl ⟨bs, rfl, h⟩)
    | tick => exact .inr (.inr (.inl ⟨rfl, h⟩))
    | write a v => exact .inr (.inr (.inr (.inl ⟨a, v, rfl, h⟩)))
    | read a => exact .inr (.inr (.inr (.inr (.inl ⟨a, rfl, h⟩))))
    | reset made =>
      injection h with h
      exact .inr (.inr (.inr (.inr (.inr (.inl ⟨made, rfl, h.symm⟩)))))
    | switch k => exact .inr (.inr (.inr (.inr (.inr (.inr ⟨k, rfl, h⟩)))))

/-- Every instruction that is a command leaves the machine as `State.runCommand_next` says; the one that is none
writes the counter's output (R101, R110). -/
theorem exec_next {i : Instr} {s t : State} (h : exec i s = .next t) :
    (∃ c, i.command = some c ∧ s.runCommand c = .next t) ∨
      (∃ v, i = .popcnt8 v ∧ t = { s with popOut := popcnt8 v }) := by
  cases hc : i.command with
  | some c => exact .inl ⟨c, rfl, exec_of_command hc s ▸ h⟩
  | none =>
    cases i with
    | popcnt8 v =>
      injection h with h
      exact .inr ⟨v, rfl, h.symm⟩
    | _ => cases hc

/-- The memory after reset is in its canonical form. -/
theorem reset_mem_wf : Memory.wf State.reset.mem := ⟨List.Pairwise.nil, by simp [State.reset]⟩

end Sys2Proof.Machine
end

