-- ==== Sys2Proof/Tests/Slice0.lean ====
section
/-! SUPPORT. The model's own tests. Expected values are those of 95_test_vectors.md, named by their ids there, or
counted by hand from a rule. The theorems `test_meets_<Name>` show that the hypotheses of the statement `<Name>` can be met
together. -/

namespace Sys2Proof.Machine

/-! ### Helpers -/

/-- The next state, if there is one. -/
def nextOf : Host.Outcome State Fault Refusal → Option State
  | .next t => some t
  | .fault _ => none
  | .refused _ => none

/-- The refusal, if there is one. -/
def refusalOf : Host.Outcome State Fault Refusal → Option Refusal
  | .refused r => some r
  | .next _ => none
  | .fault _ => none

/-- The fault, if there is one. -/
def faultOf : Host.Outcome State Fault Refusal → Option Fault
  | .fault f => some f
  | .next _ => none
  | .refused _ => none

theorem eq_next_of_nextOf {o : Host.Outcome State Fault Refusal} (h : (nextOf o).isSome = true) :
    ∃ t, o = .next t := by
  cases o with
  | next t => exact ⟨t, rfl⟩
  | fault _ => cases h
  | refused _ => cases h

/-- The cells of a block at `base`, the bytes that are 0 left out. -/
def cells (base : Nat) (f : Nat → Byte) (n : Nat) : List Host.Cell :=
  ((List.range n).map fun i => (base + i, f i)).filter fun c => c.2 != 0

/-- The block `G1` of 95_test_vectors.md section 3.2. -/
def g1 (i : Nat) : Byte := BitVec.ofNat 8 (i * i / 16)

/-- The machine after reset with a memory. -/
def withMem (m : List Host.Cell) : State := { State.reset with mem := m }

/-- The machine after reset that has accepted a command. -/
def running (c : Command) (m : List Host.Cell) : State :=
  { withMem m with eng := Engine.reset.start c }

/-- One zero block with bit 0 of byte 0 set, and the code of the zero block. -/
def oneWrong : List Host.Cell := [(0x1000, 1), (0x2000, 0xFF), (0x2001, 0xFF), (0x2002, 0xFF)]

/-- Two zero blocks and their codes. -/
def twoClean : List Host.Cell :=
  [(0x2000, 0xFF), (0x2001, 0xFF), (0x2002, 0xFF), (0x2003, 0xFF), (0x2004, 0xFF), (0x2005, 0xFF)]

/-! ### Well-formedness: each check refuses a term that fails it alone -/

theorem test_wf_compute : (Instr.compute 0x200 0x1000 0x2000).wellFormed Params.default = true := by decide
theorem test_wf_compute_len : (Instr.compute (2 ^ 32) 0x1000 0x2000).wellFormed Params.default = false := by decide
theorem test_wf_compute_dbase : (Instr.compute 0x200 (2 ^ 32) 0x2000).wellFormed Params.default = false := by decide
theorem test_wf_compute_cbase : (Instr.compute 0x200 0x1000 (2 ^ 32)).wellFormed Params.default = false := by decide
theorem test_wf_verify_len : (Instr.verify (2 ^ 32) 0x1000 0x2000).wellFormed Params.default = false := by decide
theorem test_wf_verify_dbase : (Instr.verify 0x200 (2 ^ 32) 0x2000).wellFormed Params.default = false := by decide
theorem test_wf_verify_cbase : (Instr.verify 0x200 0x1000 (2 ^ 32)).wellFormed Params.default = false := by decide
theorem test_wf_compute256_dbase : (Instr.compute256 (2 ^ 32) 0x2000).wellFormed Params.default = false := by decide
theorem test_wf_compute256_cbase : (Instr.compute256 0x1000 (2 ^ 32)).wellFormed Params.default = false := by decide
theorem test_wf_verify256_dbase : (Instr.verify256 (2 ^ 32) 0x2000).wellFormed Params.default = false := by decide
theorem test_wf_verify256_cbase : (Instr.verify256 0x1000 (2 ^ 32)).wellFormed Params.default = false := by decide
/-- `LW = 9` can express 256 (R13), and no more than 511. -/
theorem test_wf_small_len : (Instr.compute256 0 256).wellFormed ⟨10, 9⟩ = true ∧
    (Instr.compute 512 0 512).wellFormed ⟨10, 9⟩ = false := by decide
theorem test_params_ok : Params.default.Ok ∧ ¬(⟨9, 9⟩ : Params).Ok ∧ ¬(⟨10, 8⟩ : Params).Ok ∧ ¬(⟨10, 11⟩ : Params).Ok := by
  decide

/-! ### Decoding: words written out from R100, as bytes from the least significant up (assumption 5) -/

/-- P1 step 1: `0_00000200_00001000_00002000`. -/
theorem test_decode_compute :
    (decode Params.default [0x00, 0x20, 0, 0, 0x00, 0x10, 0, 0, 0x00, 0x02, 0, 0, 0]).toOption =
      some (.compute 0x200 0x1000 0x2000) := by decide +kernel
/-- P3 step 1: `1_00000300_00008000_00009000`. -/
theorem test_decode_verify :
    (decode Params.default [0x00, 0x90, 0, 0, 0x00, 0x80, 0, 0, 0x00, 0x03, 0, 0, 1]).toOption =
      some (.verify 0x300 0x8000 0x9000) := by decide +kernel
/-- P4 step 3: `0_00000100_00001000_00002000`. -/
theorem test_decode_compute256 :
    (decode Params.default [0x00, 0x20, 0, 0, 0x00, 0x10, 0, 0, 0x00, 0x01, 0, 0, 0]).toOption =
      some (.compute256 0x1000 0x2000) := by decide +kernel
/-- P3 step 2: `1_00000100_00008200_00009006`. -/
theorem test_decode_verify256 :
    (decode Params.default [0x06, 0x90, 0, 0, 0x00, 0x82, 0, 0, 0x00, 0x01, 0, 0, 1]).toOption =
      some (.verify256 0x8200 0x9006) := by decide +kernel
/-- POPCNT8 has no encoding (R101). -/
theorem test_encode_popcnt8 : encode Params.default (.popcnt8 0xA5) = none := by decide
/-- A bit above bit 96 is no command (R100). -/
theorem test_decode_stray_bit :
    decode Params.default [0x00, 0x20, 0, 0, 0x00, 0x10, 0, 0, 0x00, 0x02, 0, 0, 2] = .error .strayBits := by rfl
/-- There is one length (R100): 12 bytes are no command. -/
theorem test_decode_short :
    decode Params.default [0x00, 0x20, 0, 0, 0x00, 0x10, 0, 0, 0x00, 0x02, 0, 0] = .error .wrongLength := by rfl
/-- The text form of R104. -/
theorem test_text : (Instr.compute 300 4096 8192).text = "COMPUTE 300, 4096, 8192" := by decide +kernel

/-! ### The instructions -/

/-- P1 step 1: the codes of `Z` and C3; `BLK` ran to 2; response `0 00`. -/
theorem test_compute_two_blocks :
    (nextOf (exec (.compute 0x200 0x1000 0x2000) (withMem [(0x1100, 1)]))).map
        (fun t => (bytesAt t.mem 0x2000 6, t.eng.blk, t.eng.response)) =
      some ([0xFF, 0xFF, 0xFF, 0xAA, 0xAA, 0xAB], 2, 0b000#3) := by decide +kernel

/-- M3: 300 is no multiple of 256; LengthError, memory unchanged. -/
theorem test_compute_bad_length :
    (nextOf (exec (.compute 0x12C 0x1000 0x2000) (withMem [(0x1100, 1)]))).map
        (fun t => (t.mem, t.eng.response, t.eng.busy)) =
      some ([(0x1100, 1)], 0b100#3, false) := by decide +kernel

/-- A clean block `Z` in slice 0 and V21 in slice 1: corrected, SingleBitCorrected. -/
theorem test_verify_corrects :
    (nextOf (exec (.verify 0x200 0x1000 0x2000) (withMem ((0x1100, 1) :: twoClean)))).map
        (fun t => (Memory.read t.mem 0x1100, t.eng.work.sy, t.eng.corr, t.eng.blk, t.eng.response)) =
      some (0, ⟨0x55, 0x55, 0x54⟩, true, 2, 0b001#3) := by decide +kernel

/-- V21 in slice 0, which stays corrected; V23 in slice 1, where the scan stops; slice 2 is never read (R184, R186). -/
theorem test_verify_aborts :
    (nextOf (exec (.verify 0x300 0x1000 0x2000) (withMem
        [(0x1000, 1), (0x1200, 1), (0x2000, 0xFF), (0x2001, 0xFF), (0x2002, 0xFF)]))).map
        (fun t => (Memory.read t.mem 0x1000, Memory.read t.mem 0x1200, t.eng.blk, t.eng.response)) =
      some (0, 1, 1, 0b011#3) := by decide +kernel

/-- C5, with its accumulators, at bases that are aligned to nothing (R57). -/
theorem test_compute256_c5 :
    (nextOf (exec (.compute256 0x1001 0x2003) (withMem [(0x10A6, 0x10)]))).map
        (fun t => (codeAt t.mem 0x2003, t.eng.work.cs, t.eng.work.le, t.eng.work.lo, t.eng.work.ce, t.eng.work.co)) =
      some (⟨0x66, 0x99, 0x6B⟩, 0x10, 0x5A, 0xA5, 3, 4) := by decide +kernel

/-- The two buffers of one block may not share a byte (R64). -/
theorem test_compute256_overlap :
    refusalOf (exec (.compute256 0x1000 0x10FF) State.reset) = some .buffersOverlap := by decide +kernel

/-- V18: eleven set bits of no single bit's shape; bit 0 of byte F1 is inverted all the same (R170). -/
theorem test_verify256_v18 :
    (nextOf (exec (.verify256 0x1000 0x2000) (withMem
        (cells 0x1000 g1 256 ++ [(0x2000, 0x5A), (0x2001, 0x51), (0x2002, 0x5B)])))).map
        (fun t => (t.eng.work.w, t.eng.work.byteOff, t.eng.work.bitOff, Memory.read t.mem 0x10F1, t.eng.response)) =
      some (11, 0xF1, 0, 0x2F, 0b001#3) := by decide +kernel

/-- V23: the code `00 00 00` over `Z` has weight 24. -/
theorem test_verify256_v23 :
    (nextOf (exec (.verify256 0x1000 0x2000) (withMem []))).map (fun t => (t.eng.work.w, t.mem, t.eng.response)) =
      some (24, [], 0b011#3) := by decide +kernel

/-- Section 3.1: POPCNT8(A5) = 4, POPCNT8(7F) = 7. -/
theorem test_popcnt8 :
    (nextOf (exec (.popcnt8 0xA5) State.reset)).map State.popOut = some 4 ∧
    (nextOf (exec (.popcnt8 0x7F) State.reset)).map State.popOut = some 7 := by decide +kernel

/-- A buffer that ends at the top of the address space is accepted, one byte more is refused (R65). -/
theorem test_top_of_memory :
    (nextOf (State.reset.accept ⟨.compute, 0x100, 2 ^ 32 - 0x100, 0⟩)).isSome = true ∧
    (nextOf (State.reset.accept ⟨.compute, 0x100, 0, 2 ^ 32 - 3⟩)).isSome = true ∧
    refusalOf (State.reset.accept ⟨.compute, 0x100, 2 ^ 32 - 0xFF, 0⟩) = some .bufferWraps ∧
    refusalOf (State.reset.accept ⟨.compute, 0x100, 0, 2 ^ 32 - 2⟩) = some .bufferWraps := by decide +kernel

/-! ### Steps -/

/-- The word of the opcode table runs as the very next step (assumption 4): `COMPUTE 256, 0x1000, 0x2000`. -/
theorem test_withFetchWord :
    (nextOf (step (State.reset.withFetchWord 104 0x0_00000100_00001000_00002000))).map
        (fun t => (codeAt t.mem 0x2000, t.eng.response, t.inputs)) =
      some (⟨0xFF, 0xFF, 0xFF⟩, 0b000#3, []) := by decide +kernel

/-- A command presented and run slice by slice: acceptance, one slice, the response (decision D1). -/
theorem test_slices :
    (nextOf (Host.Core.run core 4 { withMem [(0x1000, 1)] with
        inputs := [.present [0x00, 0x20, 0, 0, 0x00, 0x10, 0, 0, 0x00, 0x01, 0, 0, 0]] })).map
        (fun t => (codeAt t.mem 0x2000, t.eng.blk, t.eng.busy, t.eng.waiting)) =
      some (⟨0xAA, 0xAA, 0xAB⟩, 1, false, []) := by decide +kernel

/-- A reset after the first of the three code bytes of a slice (R233, U8). -/
theorem test_reset_in_slice :
    (nextOf (step { running ⟨.compute, 0x100, 0x1000, 0x2000⟩ [(0x1000, 1)] with inputs := [.reset 1] })).map
        (fun t => (bytesAt t.mem 0x2000 3, t.eng.busy)) =
      some ([0xAA, 0, 0], false) := by decide +kernel

/-- The inputs no host can make. -/
theorem test_faults :
    faultOf (step { State.reset with inputs := [.write (2 ^ 32) 1] }) = some (.addressOutside (2 ^ 32)) ∧
    faultOf (step { State.reset with inputs := [.switch 0] }) = some (.noSuchEngine 0) := by decide +kernel

/-- A command whose code buffer reaches into a region without ordinary storage is refused (decision D16, U6). -/
theorem test_no_storage :
    refusalOf (exec (.compute256 0x1000 0x2000) { State.reset with nonStorage := [⟨0x2002, 1⟩] }) = some .noStorage ∧
    (nextOf (exec (.compute256 0x1000 0x2000) { State.reset with nonStorage := [⟨0x2003, 1⟩] })).isSome = true := by
  decide +kernel

/-- U3: two commands that share one byte are in conflict if one of them is a VERIFY, though both only read it, or if one
may write it; two COMPUTEs that only read a common block are not (assumption 11), nor are neighbours. -/
theorem test_conflicts :
    (⟨.verify, 0x100, 0x1000, 0x3000⟩ : Command).conflicts ⟨.verify, 0x100, 0x2000, 0x3002⟩ = true ∧
    (⟨.compute, 0x100, 0x1000, 0x3000⟩ : Command).conflicts ⟨.verify, 0x100, 0x2000, 0x10FF⟩ = true ∧
    (⟨.compute, 0x100, 0x1000, 0x3000⟩ : Command).conflicts ⟨.compute, 0x100, 0x2F01, 0x4000⟩ = true ∧
    (⟨.compute, 0x100, 0x1000, 0x3000⟩ : Command).conflicts ⟨.compute, 0x100, 0x1000, 0x3003⟩ = false ∧
    (⟨.verify, 0x100, 0x1000, 0x3000⟩ : Command).conflicts ⟨.verify, 0x100, 0x1100, 0x3003⟩ = false := by decide

/-- A VERIFY presented to one instance while another runs a VERIFY with the same code buffer is refused (U3). -/
theorem test_data_race :
    refusalOf (exec (.verify256 0x1000 0x3000)
      { State.reset with others := [Engine.reset.start ⟨.verify, 0x100, 0x2000, 0x3000⟩] }) = some .dataRace := by
  decide +kernel

/-! ### The hypotheses of the statements can be met -/

/-- Two instances, each running a command, in nobody's way; a third command waits at the first. -/
def twoRunning : State where
  params := Params.default
  eng := (Engine.reset.start ⟨.compute, 0x100, 0x1000, 0x2000⟩).enqueue ⟨.verify, 0x200, 0x1000, 0x2000⟩
  others := [Engine.reset.start ⟨.verify, 0x200, 0x5000, 0x6000⟩]
  mem := oneWrong
  nonStorage := [⟨0x9000, 0x100⟩]
  inputs := []
  popOut := 3
  hostData := 7

/-- The other three outcomes of VERIFY and a bad length, in one block at 0x1000 with its code at 0x2000. -/
def withCode (b0 b1 b2 : Byte) : State := withMem [(0x2000, b0), (0x2001, b1), (0x2002, b2)]

theorem test_meets_encodings :
    Params.default.Ok ∧ (Instr.compute (2 ^ 32 - 1) 0 (2 ^ 32 - 1)).wellFormed Params.default = true ∧
    (encode Params.default (.compute (2 ^ 32 - 1) 0 (2 ^ 32 - 1))).isSome = true ∧
    (Instr.verify256 (2 ^ 10 - 1) 0).wellFormed ⟨10, 9⟩ = true ∧ (encode ⟨10, 9⟩ (.verify256 (2 ^ 10 - 1) 0)).isSome = true ∧
    (decode Params.default (List.replicate 12 0xFF ++ [1])).toOption =
      some (.verify (2 ^ 32 - 1) (2 ^ 32 - 1) (2 ^ 32 - 1)) := by decide +kernel

theorem test_meets_CodeDependsOnBlockOnly :
    ∃ D E : Nat → Byte, (∀ i, i < 256 → D i = E i) ∧ D 256 ≠ E 256 :=
  ⟨fun _ => 1, fun i => if i < 256 then 1 else 0, fun i h => by simp [h], by decide⟩

/-- The bounds of a bit's position, at both ends; two positions that differ in the bit alone. -/
theorem test_meets_positions :
    ((0 < 256 ∧ 0 < 8) ∧ (255 < 256 ∧ 7 < 8) ∧ ¬((255 : Nat) = 255 ∧ (6 : Nat) = 7)) ∧
    (0 < 24 ∧ 23 < 24 ∧ (0 : Nat) ≠ 23) := by decide

/-- V17's four positions. -/
theorem test_meets_CancellingErrorsAreMissed :
    let ps : List (Nat × Nat) := [(0, 0), (1, 1), (2, 0), (3, 1)]
    (∀ p ∈ ps, p.1 < 256 ∧ p.2 < 8) ∧ ps.length % 2 = 0 ∧
    ps.foldl (fun a p => a ^^^ p.1) 0 = 0 ∧ ps.foldl (fun a p => a ^^^ p.2) 0 = 0 := by decide

/-- R174's four stored codes: the last hypothesis is met by pad bits `10`, `01` and `00`. -/
theorem test_meets_PadBitsCount :
    ∀ b ∈ ([0xFE, 0xFD, 0xFC] : List Byte), ¬(b[1] = true ∧ b[0] = true) := by decide

/-- The four clauses of the outcomes: the zero syndrome, and syndromes of weight 11, 1 and 2 (V2, V6, V9). -/
theorem test_meets_Verify256Outcomes :
    popcnt24 ⟨0x5A, 0xA5, 0x98⟩ = 11 ∧ popcnt24 ⟨0x80, 0, 0⟩ = 1 ∧ popcnt24 ⟨0, 0, 3⟩ = 2 ∧ popcnt24 ⟨0, 0, 0⟩ = 0 ∧
    ∀ sy : Code, ∃ sc, (codeOf fun _ => 0).xor sc = sy := by
  refine ⟨by decide, by decide, by decide, by decide, fun sy => ⟨(codeOf fun _ => 0).xor sy, ?_⟩⟩
  rw [← Code.xor_assoc, Code.xor_self, Code.zero_xor]

/-- An idle engine and a command that it accepts, for COMPUTE, COMPUTE256, VERIFY and VERIFY256; the buffers end at the
top of the address space, or touch one another without a byte in common. -/
theorem test_meets_commands :
    State.reset.eng.idle = true ∧
    (Instr.compute 0x200 (2 ^ 32 - 0x200) (2 ^ 32 - 0x206)).command =
      some ⟨.compute, 0x200, 2 ^ 32 - 0x200, 2 ^ 32 - 0x206⟩ ∧
    State.reset.Accepts ⟨.compute, 0x200, 2 ^ 32 - 0x200, 2 ^ 32 - 0x206⟩ ∧
    (Instr.compute256 0 0x100).command = some ⟨.compute, 256, 0, 0x100⟩ ∧ State.reset.Accepts ⟨.compute, 256, 0, 0x100⟩ ∧
    (Instr.verify 0x200 0x1000 0x2000).command = some ⟨.verify, 0x200, 0x1000, 0x2000⟩ ∧
    (withMem oneWrong).Accepts ⟨.verify, 0x200, 0x1000, 0x2000⟩ ∧
    (Instr.verify256 0x1000 0x2000).command = some ⟨.verify, 256, 0x1000, 0x2000⟩ ∧
    (withMem oneWrong).Accepts ⟨.verify, 256, 0x1000, 0x2000⟩ := by decide +kernel

/-- Each of the four operations answers a next state: the premise of the frames and of the legal responses. -/
theorem test_meets_frames :
    (∃ t, exec (.compute 0x200 0x1000 0x2000) State.reset = .next t) ∧
    (∃ t, exec (.compute256 0x1000 0x2000) State.reset = .next t) ∧
    (∃ t, exec (.verify 0x200 0x1000 0x2000) State.reset = .next t) ∧
    (∃ t, exec (.verify256 0x1000 0x2000) (withMem oneWrong) = .next t) := by
  refine ⟨?_, ?_, ?_, ?_⟩ <;> exact eq_next_of_nextOf (by decide +kernel)

/-- A slice that is corrected, in the frame of VERIFY: the first of two, the second a hard failure. -/
theorem test_meets_VerifyFrame :
    let s := withMem oneWrong
    let c : Command := ⟨.verify, 0x200, 0x1000, 0x2000⟩
    s.eng.idle = true ∧ legalLength c.len = true ∧ slicesPassed s.mem c = 1 ∧ classAt s.mem c 0 = .singleBitCorrected ∧
    classAt s.mem c 1 = .multipleBitsUncorrectable ∧ (byteOffset (syndromeAt s.mem c 0)).toNat = 0 := by decide +kernel

/-- Both clauses of a bad length, for both operations. -/
theorem test_meets_BadLengthIsLengthError :
    (Instr.compute 0 0 0).command = some ⟨.compute, 0, 0, 0⟩ ∧ ((0 : Nat) = 0 ∨ 0 % 256 ≠ 0) ∧
    (Instr.verify 511 0 0).command = some ⟨.verify, 511, 0, 0⟩ ∧ ((511 : Nat) = 0 ∨ 511 % 256 ≠ 0) ∧
    State.reset.eng.idle = true := by decide

/-- The clauses of bad buffers at their first values: one byte past the top, by either buffer; one byte in common, at
the end of the data buffer and at its start. -/
theorem test_meets_BadBuffersAreRefused :
    State.reset.eng.idle = true ∧ (256 : Nat) ≠ 0 ∧ 256 % 256 = 0 ∧ State.reset.params.aw = 32 ∧
    2 ^ 32 < (2 ^ 32 - 255) + 256 ∧ 2 ^ 32 < (2 ^ 32 - 2) + 3 * (256 / 256) ∧
    ((0x1000 ≤ 0x10FF ∧ 0x10FF < 0x1000 + 256) ∧ (0x10FF ≤ 0x10FF ∧ 0x10FF < 0x10FF + 3 * (256 / 256))) ∧
    ((0x1000 ≤ 0x1000 ∧ 0x1000 < 0x1000 + 256) ∧ (0xFFE ≤ 0x1000 ∧ 0x1000 < 0xFFE + 3 * (256 / 256))) := by decide

/-- The clause of a region without storage, at the last byte of the data buffer and the first of the code buffer. -/
theorem test_meets_BadBuffersAreRefused_noStorage :
    twoRunning.nonStorage = [⟨0x9000, 0x100⟩] ∧
    (let c : Command := ⟨.verify, 256, 0x8F01, 0⟩
     c.wraps twoRunning.params = false ∧ c.overlaps = false ∧
     (0x9000 ≤ 0x9000 ∧ 0x9000 < 0x9000 + 0x100) ∧ (c.dbase ≤ 0x9000 ∧ 0x9000 < c.dbase + c.len)) ∧
    (let c : Command := ⟨.verify, 256, 0, 0x90FF⟩
     c.wraps twoRunning.params = false ∧ c.overlaps = false ∧
     (0x9000 ≤ 0x90FF ∧ 0x90FF < 0x9000 + 0x100) ∧ (c.cbase ≤ 0x90FF ∧ 0x90FF < c.cbase + 3 * (c.len / 256))) := by
  decide

/-- Both clauses, at both ends of a region and at the first address that does not fit. -/
theorem test_meets_HostAccessNeedsStorage :
    twoRunning.nonStorage = [⟨0x9000, 0x100⟩] ∧
    (0x9000 < 2 ^ twoRunning.params.aw ∧ 0x9000 ≤ 0x9000 ∧ 0x9000 < 0x9000 + 0x100) ∧
    (0x90FF < 2 ^ twoRunning.params.aw ∧ 0x9000 ≤ 0x90FF ∧ 0x90FF < 0x9000 + 0x100) ∧
    2 ^ twoRunning.params.aw ≤ 2 ^ 32 := by decide

/-- An engine that runs, and an idle engine at which a command waits. -/
theorem test_meets_CommandWaitsWhileBusy :
    twoRunning.eng.busy = true ∧
    ({ Engine.reset with waiting := [⟨.verify, 0x100, 0, 0x100⟩] } : Engine).waiting ≠ [] := by decide

/-- Two idle engines with different histories. -/
theorem test_meets_HistoryHasNoEffect :
    State.reset.eng.idle = true ∧ (Engine.reset.raiseLengthError ⟨.verify, 3, 9, 9⟩).idle = true ∧
    Engine.reset.raiseLengthError ⟨.verify, 3, 9, 9⟩ ≠ State.reset.eng := by decide

/-- Two memories that differ in the code buffer only. -/
theorem test_meets_OldCodesAreNotRead :
    State.reset.Accepts ⟨.compute, 0x100, 0x1000, 0x2000⟩ ∧
    (∀ a, a < 0x2000 ∨ 0x2000 + 3 * (0x100 / 256) ≤ a →
      Memory.read [(0x2000, 7), (0x2002, 9)] a = Memory.read State.reset.mem a) := by
  refine ⟨by decide, fun a h => ?_⟩
  rw [Memory.read_cons, if_neg (by omega), Memory.read_cons, if_neg (by omega)]
  rfl

theorem test_meets_VerifyAfterComputeIsClean :
    State.reset.eng.idle = true ∧ State.reset.Accepts ⟨.verify, 0x100, 0x1000, 0x2000⟩ ∧
    ∃ t, exec (.compute 0x100 0x1000 0x2000) State.reset = .next t :=
  ⟨by decide, by decide, eq_next_of_nextOf (by decide +kernel)⟩

theorem test_twoClean_codes (j : Nat) (hj : j < 0x200 / 256) :
    codeAt twoClean (0x2000 + 3 * j) = codeOf (blockAt twoClean (0x1000 + 256 * j)) := by
  have h : ∀ j : Fin 2, codeAt twoClean (0x2000 + 3 * j) = codeOf (blockAt twoClean (0x1000 + 256 * j)) := by
    decide +kernel
  exact h ⟨j, hj⟩

/-- The last bit of the last byte of the last block wrong. -/
theorem test_meets_SingleBitErrorIsRepaired :
    let s := withMem ((0x11FF, 0x80) :: twoClean)
    s.eng.idle = true ∧ s.Accepts ⟨.verify, 0x200, 0x1000, 0x2000⟩ ∧
    (∀ j, j < 0x200 / 256 → codeAt twoClean (0x2000 + 3 * j) = codeOf (blockAt twoClean (0x1000 + 256 * j))) ∧
    1 < 0x200 / 256 ∧ 255 < 256 ∧ 7 < 8 ∧
    (∀ a, Memory.read s.mem a =
      if a = 0x1000 + 256 * 1 + 255 then flipBit (Memory.read twoClean a) 7 else Memory.read twoClean a) := by
  refine ⟨by decide, by decide, test_twoClean_codes, by decide, by decide, by decide, fun a => ?_⟩
  by_cases h : a = 0x11FF
  · subst h
    decide
  · simp [withMem, Memory.read_cons, Ne.symm h, h]

/-- The lowest bit of the first code byte wrong. -/
theorem test_meets_DamagedCodeIsReported :
    let s := withMem ((0x2000, 0xFE) :: twoClean.drop 1)
    s.eng.idle = true ∧ s.Accepts ⟨.verify, 0x200, 0x1000, 0x2000⟩ ∧
    (∀ j, j < 0x200 / 256 → codeAt twoClean (0x2000 + 3 * j) = codeOf (blockAt twoClean (0x1000 + 256 * j))) ∧
    0 < 0x200 / 256 ∧ 0 < 3 ∧ 0 < 8 ∧
    (∀ a, Memory.read s.mem a =
      if a = 0x2000 + 3 * 0 + 0 then flipBit (Memory.read twoClean a) 0 else Memory.read twoClean a) := by
  refine ⟨by decide, by decide, test_twoClean_codes, by decide, by decide, by decide, fun a => ?_⟩
  by_cases h : a = 0x2000
  · subst h
    decide
  · simp [withMem, twoClean, Memory.read_cons, Ne.symm h, h]

/-- Both hard failures: a pad bit wrong (V8), and a code of zeros (V23). -/
theorem test_meets_HardFailureRepeats :
    (nextOf (exec (.verify256 0x1000 0x2000) (withCode 0xFF 0xFF 0xFE))).map (fun t => t.eng.cls) =
      some .eccCorrupted ∧
    (nextOf (exec (.verify256 0x1000 0x2000) (withCode 0 0 0))).map (fun t => t.eng.cls) =
      some .multipleBitsUncorrectable ∧
    (withCode 0xFF 0xFF 0xFE).Accepts ⟨.verify, 256, 0x1000, 0x2000⟩ ∧ (withCode 0 0 0).eng.idle = true := by
  decide +kernel

/-- A slice of COMPUTE, a slice of VERIFY with a correction and one without. -/
theorem test_meets_SliceDependsOnItsReads :
    (running ⟨.compute, 0x100, 0x1000, 0x2000⟩ []).eng.cmd.op = .compute ∧
    (running ⟨.verify, 0x100, 0x1000, 0x2000⟩ []).eng.sliceClass oneWrong = .singleBitCorrected ∧
    (running ⟨.verify, 0x100, 0x1000, 0x2000⟩ []).eng.sliceClass [] ≠ .singleBitCorrected := by decide +kernel

/-- Bytes that decode to an instruction which is a command, and bytes that do not; the first instance beside the one that
moves, and the first place that has none. Any list of inputs can stand in a state. -/
theorem test_meets_StepRunsTheDecodedInstruction :
    (decode Params.default (List.replicate 13 0)).toOption = some (.compute 0 0 0) ∧
    (Instr.compute 0 0 0).command = some ⟨.compute, 0, 0, 0⟩ ∧
    decode Params.default [] = .error .wrongLength ∧
    twoRunning.others[0]? = some (Engine.reset.start ⟨.verify, 0x200, 0x5000, 0x6000⟩) ∧
    twoRunning.others.length ≤ 1 ∧ State.reset.others.length ≤ 0 ∧ twoRunning.inputs = [] :=
  ⟨by decide +kernel, rfl, rfl, rfl, by decide, by decide, rfl⟩

/-- A running COMPUTE with a slice to do, a running VERIFY with a slice to correct and one with nothing to correct, one
with all slices done, and an idle engine. -/
theorem test_meets_ResetAbandonsTheCommand :
    (twoRunning.eng.busy = true ∧ twoRunning.eng.blk < twoRunning.eng.n ∧ twoRunning.eng.cmd.op = .compute) ∧
    (let s := running ⟨.verify, 0x100, 0x1000, 0x2000⟩ oneWrong
     s.eng.busy = true ∧ s.eng.blk < s.eng.n ∧ s.eng.cmd.op = .verify ∧
     classify ((codeOf (blockAt s.mem s.eng.dp)).xor (codeAt s.mem s.eng.cp)) = .singleBitCorrected) ∧
    (let s := running ⟨.verify, 0x100, 0, 0x100⟩ []
     s.eng.busy = true ∧ s.eng.blk < s.eng.n ∧ s.eng.cmd.op = .verify ∧
     classify ((codeOf (blockAt s.mem s.eng.dp)).xor (codeAt s.mem s.eng.cp)) ≠ .singleBitCorrected) ∧
    (let e := { (running ⟨.verify, 0x100, 0, 0x100⟩ []).eng with blk := 1 }
     e.busy = true ∧ e.n ≤ e.blk) ∧
    State.reset.eng.busy = false := by decide +kernel

/-- The three clauses of the data races, at the first and last bytes of the buffers; two commands that share a byte which one
writes, a code byte that two VERIFYs read, and a byte that one COMPUTE writes and another reads. -/
theorem test_meets_DataRacesAreRefused :
    let f := Engine.reset.start ⟨.verify, 0x200, 0x5000, 0x6000⟩
    f.busy = true ∧ f ∈ twoRunning.others ∧ (∀ r ∈ twoRunning.nonStorage, r.contains 0x51FF = false) ∧
    (0x5000 ≤ 0x51FF ∧ 0x51FF < 0x5000 + 0x200) ∧ (0x6000 ≤ 0x6005 ∧ 0x6005 < 0x6000 + 3 * (0x200 / 256)) ∧
    (f.cmd.op = .verify ∧ twoRunning.eng.cmd.op = .compute ∧ twoRunning.eng.busy = true) ∧
    (let s : State := { twoRunning with eng := Engine.reset }
     let c : Command := ⟨.compute, 0x100, 0x7000, 0x51FF⟩
     s.eng.idle = true ∧ legalLength c.len = true ∧ c.wraps s.params = false ∧ c.overlaps = false ∧
     c.touches s.nonStorage = false ∧ (0x51FF ≤ 0x51FF ∧ 0x51FF < c.cbase + 3 * (c.len / 256)) ∧
     (f.cmd.dbase ≤ 0x51FF ∧ 0x51FF < f.cmd.dbase + f.cmd.len)) ∧
    (let c : Command := ⟨.verify, 0x100, 0x7000, 0x6005⟩
     c.overlaps = false ∧ c.wraps twoRunning.params = false ∧ c.touches twoRunning.nonStorage = false ∧
     (c.cbase ≤ 0x6005 ∧ 0x6005 < c.cbase + 3 * (c.len / 256)) ∧
     (f.cmd.cbase ≤ 0x6005 ∧ 0x6005 < f.cmd.cbase + 3 * (f.cmd.len / 256))) ∧
    (let g : Command := ⟨.compute, 0x100, 0x1000, 0x2000⟩
     let c : Command := ⟨.compute, 0x100, 0x2002, 0x7000⟩
     c.overlaps = false ∧ (c.dbase ≤ 0x2002 ∧ 0x2002 < c.dbase + c.len) ∧
     (g.cbase ≤ 0x2002 ∧ 0x2002 < g.cbase + 3 * (g.len / 256))) := by decide

theorem test_meets_HostReadsBackItsWrite :
    2 ^ 32 - 1 < 2 ^ twoRunning.params.aw ∧ (∀ r ∈ twoRunning.nonStorage, r.contains (2 ^ 32 - 1) = false) ∧
    (∀ f ∈ twoRunning.eng :: twoRunning.others, f.busy = true → f.cmd.uses (2 ^ 32 - 1) = false) := by decide

/-- The invariant holds of two running engines, with a command that waits. -/
theorem test_twoRunning_inv : twoRunning.Inv := by
  refine ⟨by decide, ?_, ?_, by decide, by decide, by decide⟩
  · constructor <;> decide
  · intro e he
    obtain rfl : e = Engine.reset.start ⟨.verify, 0x200, 0x5000, 0x6000⟩ := by simpa [twoRunning] using he
    constructor <;> decide

theorem test_twoRunning_exclusive : twoRunning.Exclusive := by
  have h : (twoRunning.eng.cmd.conflicts (Engine.reset.start ⟨.verify, 0x200, 0x5000, 0x6000⟩).cmd) = false := by decide
  simpa [State.Exclusive, twoRunning, Engine.compatible] using h

/-- The premises of the invariants, of a stable and of an ending command: two running engines take a step. -/
theorem test_meets_steps :
    twoRunning.Inv ∧ twoRunning.Exclusive ∧ twoRunning.inputs = [] ∧ twoRunning.eng.busy = true ∧
    ∃ t, step twoRunning = .next t :=
  ⟨test_twoRunning_inv, test_twoRunning_exclusive, rfl, rfl, eq_next_of_nextOf (by decide +kernel)⟩

/-- An idle engine at which no command waits, and one at which an acceptable one does. -/
theorem test_meets_IdleEngineRestsOrAccepts :
    let s : State := { State.reset with eng := { Engine.reset with waiting := [⟨.verify, 0x100, 0, 0x100⟩] } }
    (State.reset.inputs = [] ∧ State.reset.eng.busy = false ∧ State.reset.eng.waiting = []) ∧
    s.inputs = [] ∧ s.eng.busy = false ∧ s.eng.waiting = ⟨.verify, 0x100, 0, 0x100⟩ :: [] ∧
    s.Accepts ⟨.verify, 0x100, 0, 0x100⟩ := by decide

theorem test_meets_WholeCommandEqualsItsSlices :
    (withMem oneWrong).inputs = [] ∧ (withMem oneWrong).eng.idle = true ∧
    ∃ t, exec (.verify 0x200 0x1000 0x2000) (withMem oneWrong) = .next t :=
  ⟨rfl, rfl, eq_next_of_nextOf (by decide +kernel)⟩

theorem test_meets_DisjointInstancesCommute :
    twoRunning.Inv ∧ twoRunning.others = Engine.reset.start ⟨.verify, 0x200, 0x5000, 0x6000⟩ :: [] ∧
    twoRunning.eng.busy = true ∧
    twoRunning.eng.cmd.conflicts (⟨.verify, 0x200, 0x5000, 0x6000⟩) = false :=
  ⟨test_twoRunning_inv, rfl, rfl, by decide⟩

end Sys2Proof.Machine
end

section
/-! PROOFS. The scope of the engine (00_scope.md): the packed command and its decoder are inverse to each other at all
widths, and the state after reset. -/

namespace Sys2Proof

/-! ### The packed word as digits: `op`, `len`, `dbase`, `cbase` in the bases `2`, `2^LW`, `2^AW`, `2^AW` -/

theorem mul_add_div_of_lt {a b c : Nat} (h : c < b) : (a * b + c) / b = a := by
  rw [Nat.mul_comm, Nat.mul_add_div (by omega), Nat.div_eq_of_lt h, Nat.add_zero]

theorem two_pow_packedBits (p : Params) : 2 ^ p.packedBits = 2 * 2 ^ p.lw * 2 ^ p.aw * 2 ^ p.aw := by
  rw [Params.packedBits]
  ring

theorem unpackCommand_eq_digits (p : Params) (w : Nat) :
    unpackCommand p w =
      { op := if w / 2 ^ p.aw / 2 ^ p.aw / 2 ^ p.lw % 2 = 1 then .verify else .compute
        len := w / 2 ^ p.aw / 2 ^ p.aw % 2 ^ p.lw
        dbase := w / 2 ^ p.aw % 2 ^ p.aw
        cbase := w % 2 ^ p.aw } := by
  simp only [unpackCommand, Nat.div_div_eq_div_mul]
  ring_nf

theorem Op.code_lt (op : Op) : op.code < 2 := by
  cases op <;> decide

theorem Op.ite_code_eq (op : Op) : (if op.code % 2 = 1 then Op.verify else .compute) = op := by
  cases op <;> rfl

theorem Op.code_ite (n : Nat) : (if n % 2 = 1 then Op.verify else .compute).code = n % 2 := by
  split
  case isTrue h => exact h.symm
  case isFalse h => exact (Nat.mod_two_ne_one.mp h).symm

/-- The packed word of a command that fits its fields has no bit above the top one (R100). -/
theorem packCommand_lt {p : Params} {c : Command} (h : c.WellFormed p) : packCommand p c < 2 ^ p.packedBits := by
  obtain ⟨hlen, hd, hc⟩ := h
  rw [two_pow_packedBits, packCommand, ← Nat.div_lt_iff_lt_mul (Nat.two_pow_pos _), mul_add_div_of_lt hc,
    ← Nat.div_lt_iff_lt_mul (Nat.two_pow_pos _), mul_add_div_of_lt hd,
    ← Nat.div_lt_iff_lt_mul (Nat.two_pow_pos _), mul_add_div_of_lt hlen]
  exact c.op.code_lt

theorem unpackCommand_packCommand {p : Params} {c : Command} (h : c.WellFormed p) :
    unpackCommand p (packCommand p c) = c := by
  obtain ⟨hlen, hd, hc⟩ := h
  simp only [unpackCommand_eq_digits, packCommand, mul_add_div_of_lt hc, mul_add_div_of_lt hd,
    mul_add_div_of_lt hlen, Nat.mul_add_mod_of_lt hc, Nat.mul_add_mod_of_lt hd, Nat.mul_add_mod_of_lt hlen,
    Op.ite_code_eq]

theorem packCommand_unpackCommand {p : Params} {w : Nat} (h : w < 2 ^ p.packedBits) :
    packCommand p (unpackCommand p w) = w := by
  have hop : w / 2 ^ p.aw / 2 ^ p.aw / 2 ^ p.lw < 2 := by
    rwa [Nat.div_lt_iff_lt_mul (Nat.two_pow_pos _), Nat.div_lt_iff_lt_mul (Nat.two_pow_pos _),
      Nat.div_lt_iff_lt_mul (Nat.two_pow_pos _), ← two_pow_packedBits]
  simp only [unpackCommand_eq_digits, packCommand, Op.code_ite]
  rw [Nat.mod_eq_of_lt hop]
  simp only [Nat.div_add_mod']

/-! ### The decoder and the encoder of commands -/

/-- The decoder's answer in full: one length, no stray bits, and the fields of the word (R100, R107). -/
theorem decodeCommand_eq_ok_iff {p : Params} {bs : List Byte} {c : Command} :
    decodeCommand p bs = .ok c ↔
      bs.length = p.packedBytes ∧ ofBytesLE bs < 2 ^ p.packedBits ∧ unpackCommand p (ofBytesLE bs) = c := by
  unfold decodeCommand
  split
  case isTrue hlen => simp [hlen]
  case isFalse hlen =>
    split
    case isTrue hbits => simp [Nat.not_lt.mpr hbits]
    case isFalse hbits => simp [not_not.mp hlen, Nat.not_le.mp hbits]

theorem ofBytesLE_encodeCommand {p : Params} {c : Command} (h : c.WellFormed p) :
    ofBytesLE (encodeCommand p c) = packCommand p c := by
  rw [encodeCommand, ofBytesLE_toBytesLE,
    Nat.mod_eq_of_lt ((packCommand_lt h).trans_le (two_pow_packedBits_le p))]

theorem decodeCommand_encodeCommand {p : Params} {c : Command} (h : c.WellFormed p) :
    decodeCommand p (encodeCommand p c) = .ok c := by
  rw [decodeCommand_eq_ok_iff, ofBytesLE_encodeCommand h]
  exact ⟨toBytesLE_length _ _, packCommand_lt h, unpackCommand_packCommand h⟩

theorem encodeCommand_of_decodeCommand {p : Params} {bs : List Byte} {c : Command}
    (h : decodeCommand p bs = .ok c) : encodeCommand p c = bs := by
  obtain ⟨hlen, hbits, rfl⟩ := decodeCommand_eq_ok_iff.mp h
  rw [encodeCommand, packCommand_unpackCommand hbits, ← hlen, toBytesLE_ofBytesLE]

/-! ### Instructions: the name of a command -/

/-- An instruction's canonical name is that of its command (R105). -/
theorem Instr.canonical_of_command {i : Instr} {c : Command} (h : i.command = some c) : i.canonical = instrOf c := by
  cases i <;> cases h <;> rfl

theorem Instr.wellFormed_of_command {i : Instr} {c : Command} {p : Params} (h : i.command = some c) :
    i.wellFormed p = true ↔ c.WellFormed p := by
  simp [Instr.wellFormed, h]

theorem encode_eq_some_iff {p : Params} {i : Instr} {bs : List Byte} :
    encode p i = some bs ↔ ∃ c, i.command = some c ∧ encodeCommand p c = bs :=
  Option.map_eq_some_iff

theorem decode_eq_ok_iff {p : Params} {bs : List Byte} {i : Instr} :
    decode p bs = .ok i ↔ ∃ c, decodeCommand p bs = .ok c ∧ instrOf c = i := by
  unfold decode
  cases decodeCommand p bs <;> simp

/-- Settles O2: the digits of the packed word are the fields of the command, and both names of a word are issued as
one command. -/
theorem decodeOfEncode : Obligations.DecodeOfEncode := by
  intro p i bs _ hwf henc
  obtain ⟨c, hcmd, rfl⟩ := encode_eq_some_iff.mp henc
  have hc : c.WellFormed p := (Instr.wellFormed_of_command hcmd).mp hwf
  exact decode_eq_ok_iff.mpr ⟨c, decodeCommand_encodeCommand hc, (Instr.canonical_of_command hcmd).symm⟩

/-- Settles O3: a word without stray bits is put together again from its digits, and the decoder's name is the one
its command has. -/
theorem encodeOfDecode : Obligations.EncodeOfDecode := by
  intro p bs i _ hdec
  obtain ⟨c, hc, rfl⟩ := decode_eq_ok_iff.mp hdec
  have hcmd : (instrOf c).command = some c := instrOf_command c
  refine ⟨?_, ?_, Instr.canonical_of_command hcmd⟩
  · exact encode_eq_some_iff.mpr ⟨c, hcmd, encodeCommand_of_decodeCommand hc⟩
  · exact (Instr.wellFormed_of_command hcmd).mpr (decodeCommand_wellFormed hc)

end Sys2Proof

namespace Sys2Proof.Machine

/-! ### The state after reset -/

/-- No address is without storage and no other engine exists, so the duties of the host that are left are the length
and the place of the two buffers. -/
theorem State.reset_accepts_iff {c : Command} :
    State.reset.Accepts c ↔ legalLength c.len = true ∧ c.wraps Params.default = false ∧ c.overlaps = false := by
  have hstorage : c.touches State.reset.nonStorage = false := rfl
  have hothers : State.reset.contended c = false := rfl
  have hparams : State.reset.params = Params.default := rfl
  simp [State.Accepts, hstorage, hothers, hparams]

/-- Settles O43: after reset every command that meets the three duties left is accepted. -/
theorem resetIsIdle : Obligations.ResetIsIdle := by
  refine ⟨rfl, rfl, rfl, rfl, rfl, fun c hlen hwraps hoverlaps => ?_⟩
  exact State.accept_of_accepts (State.reset_accepts_iff.mpr ⟨hlen, hwraps, hoverlaps⟩)

end Sys2Proof.Machine
end

section
/-! PROOFS. The invariant of the machine: each operation on an engine's registers keeps it, hence each slice, each whole
command and each step. -/

namespace Sys2Proof.Machine

/-! ### The working registers stay in their ranges (R24, R25, R28, R29) -/

/-- The ranges the invariant asks of the working registers. -/
structure Work.InRange (r : Work) : Prop where
  ce : r.ce.toNat < 8
  co : r.co.toNat < 8
  w : r.w ≤ 24
  i : r.i ≤ 256

theorem xorFold_lt_two_pow {f : Nat → Byte} {k n : Nat} (h : ∀ i < n, (f i).toNat < 2 ^ k) :
    (xorFold f n).toNat < 2 ^ k := by
  induction n with
  | zero => simp
  | succ n ih =>
    rw [xorFold_succ, BitVec.toNat_xor]
    exact Nat.xor_lt_two_pow (ih fun i hi => h i (by omega)) (h n (by omega))

theorem columnsEven_lt (cs : Byte) : (columnsEven cs).toNat < 8 := by
  refine xorFold_lt_two_pow (k := 3) fun i hi => ?_
  unfold columnEven
  split
  · rw [BitVec.toNat_ofNat]
    omega
  · decide

theorem columnsOdd_lt (cs : Byte) : (columnsOdd cs).toNat < 8 := by
  refine xorFold_lt_two_pow (k := 3) fun i hi => ?_
  unfold columnOdd
  split
  · rw [BitVec.toNat_ofNat]
    omega
  · decide

theorem Work.InRange.compute256 {r : Work} (h : r.InRange) (D : Nat → Byte) : (r.compute256 D).InRange := by
  rw [Work.compute256_eq]
  exact ⟨columnsEven_lt _, columnsOdd_lt _, h.w, show 8 ≤ 256 by decide⟩

theorem Work.InRange.verify256 {r : Work} (h : r.InRange) (D : Nat → Byte) (sc : Code) :
    (r.verify256 D sc).InRange := by
  rw [Work.verify256_eq]
  refine ⟨columnsEven_lt _, columnsOdd_lt _, ?_, show 8 ≤ 256 by decide⟩
  dsimp only
  split
  · exact h.w
  · exact popcnt24_le _

theorem Engine.sliceWork_inRange {e : Engine} (h : e.work.InRange) (m : List Host.Cell) :
    (e.sliceWork m).InRange := by
  cases hop : e.cmd.op
  · rw [Engine.sliceWork_compute hop]
    exact h.compute256 _
  · rw [Engine.sliceWork_verify hop]
    exact h.verify256 _ _

/-! ### The operations on an engine's registers keep `Engine.Inv` -/

theorem Engine.reset_inv (p : Params) : Engine.reset.Inv p := by
  constructor <;> simp [Engine.reset, Work.reset, Command.WellFormed]

theorem blocks_lt_of_fits {p : Params} (hp : p.Ok) {len : Nat} (h : len < 2 ^ p.lw) : blocks len < 2 ^ (p.lw - 8) := by
  obtain ⟨-, hlw, -⟩ := hp
  rw [blocks, Nat.div_lt_iff_lt_mul (by omega), show 256 = 2 ^ 8 from rfl, ← pow_add, Nat.sub_add_cancel (by omega)]
  exact h

section
variable {p : Params} {e : Engine} {c : Command}

theorem Engine.Inv.work_inRange (h : e.Inv p) : e.work.InRange := ⟨h.ceFits, h.coFits, h.wFits, h.iFits⟩

theorem Engine.Inv.withWork (h : e.Inv p) {r : Work} (hr : r.InRange) (corr : Bool) :
    Engine.Inv p { e with work := r, corr := corr } :=
  { h with ceFits := hr.ce, coFits := hr.co, wFits := hr.w, iFits := hr.i }

theorem Engine.Inv.withWaiting (h : e.Inv p) {cs : List Command} (hcs : ∀ c ∈ cs, c.WellFormed p) :
    Engine.Inv p { e with waiting := cs } :=
  { h with waitingFits := hcs }

theorem Engine.Inv.enqueue (h : e.Inv p) (hc : c.WellFormed p) : (e.enqueue c).Inv p :=
  h.withWaiting fun q hq => by
    rcases List.mem_append.mp hq with hq | hq
    · exact h.waitingFits q hq
    · exact List.mem_singleton.mp hq ▸ hc

theorem Engine.Inv.respond (h : e.Inv p) {cls : Classification} (hcls : e.cmd.op = .compute → cls = .noError) :
    (e.respond false cls).Inv p :=
  { h with errClass := nofun, computeClass := fun _ => hcls, running := nofun }

theorem Engine.Inv.raiseLengthError (h : e.Inv p) (hc : c.WellFormed p) : (e.raiseLengthError c).Inv p :=
  { h with cmdFits := hc, errClass := fun _ => rfl, computeClass := fun _ _ => rfl, running := nofun }

theorem Engine.Inv.start (h : e.Inv p) (hp : p.Ok) (hc : c.WellFormed p) (hlen : legalLength c.len = true)
    (hwraps : c.wraps p = false) (hoverlaps : c.overlaps = false) : (e.start c).Inv p := by
  have ⟨hlenFits, hdbase, hcbase⟩ := hc
  exact { h with
    cmdFits := hc
    dpFits := hdbase
    cpFits := hcbase
    blkLe := Nat.zero_le _
    nFits := blocks_lt_of_fits hp hlenFits
    computeClass := nofun
    running := fun _ =>
      ⟨hlen, rfl, hwraps, hoverlaps, (Nat.mod_eq_of_lt hdbase).symm, (Nat.mod_eq_of_lt hcbase).symm⟩ }

theorem Engine.Inv.advance (h : e.Inv p) (hbusy : e.busy = true) (hblk : e.blk < e.n) : (e.advance p).Inv p := by
  obtain ⟨hlen, hn, hwraps, hoverlaps, hdp, hcp⟩ := h.running hbusy
  exact { h with
    dpFits := Nat.mod_lt _ (Nat.two_pow_pos _)
    cpFits := Nat.mod_lt _ (Nat.two_pow_pos _)
    blkLe := hblk
    running := fun _ => ⟨hlen, hn, hwraps, hoverlaps, by simp [hdp, Nat.mul_add, Nat.add_assoc],
      by simp [hcp, Nat.mul_add, Nat.add_assoc]⟩ }

/-- The slice a running engine stands at lies below the top of the address space, so its pointers are not reduced
(R31, R65). -/
theorem Engine.Inv.slice_below_top (h : e.Inv p) (hbusy : e.busy = true) (hblk : e.blk < e.n) :
    e.dp + 256 ≤ 2 ^ p.aw ∧ e.cp + 3 ≤ 2 ^ p.aw := by
  obtain ⟨hlen, hn, hwraps, -, hdp, hcp⟩ := h.running hbusy
  obtain ⟨htop, hctop⟩ := Command.wraps_eq_false.mp hwraps
  have := len_of_legal hlen
  rw [Nat.mod_eq_of_lt (by omega)] at hdp hcp
  omega

end

/-! ### A slice, the response and the whole scan keep `State.Inv` -/

section
variable {s : State}

theorem State.Inv.withEng (h : s.Inv) {e : Engine} (he : e.Inv s.params) : State.Inv { s with eng := e } :=
  { h with engInv := he }

theorem State.Inv.withInputs (h : s.Inv) (rest : List HostInput) : State.Inv { s with inputs := rest } :=
  { h with }

theorem State.Inv.writeAll (h : s.Inv) {ws : List Host.Cell} (hws : ∀ w ∈ ws, w.1 < 2 ^ s.params.aw) :
    State.Inv { s with mem := Memory.writeAll s.mem ws } :=
  { h with
    memWf := Memory.wf_writeAll h.memWf ws
    memFits := fun c hc => (Memory.mem_writeAll hc).elim (hws c) (h.memFits c) }

theorem State.Inv.sliceWrites_fit (h : s.Inv) (hbusy : s.eng.busy = true) (hblk : s.eng.blk < s.eng.n) :
    ∀ w ∈ s.eng.sliceWrites s.mem, w.1 < 2 ^ s.params.aw := by
  intro w hw
  have htop := h.engInv.slice_below_top hbusy hblk
  have hplace := Engine.sliceWrites_mem hw
  omega

theorem State.Inv.slice (h : s.Inv) (hbusy : s.eng.busy = true) (hblk : s.eng.blk < s.eng.n) : s.slice.Inv := by
  have hwork := h.engInv.withWork (Engine.sliceWork_inRange h.engInv.work_inRange s.mem)
    (corrAfter (s.eng.sliceClass s.mem) s.eng.corr)
  have heng : s.slice.eng.Inv s.params := by
    cases hhard : (s.eng.sliceClass s.mem).hard
    · rw [State.slice_of_soft hhard]
      exact hwork.advance hbusy hblk
    · rw [State.slice_of_hard hhard]
      exact hwork.respond fun hop => Engine.sliceClass_compute (e := s.eng) hop s.mem
  exact { h.writeAll (h.sliceWrites_fit hbusy hblk) with engInv := heng }

theorem State.Inv.finish (h : s.Inv) : s.finish.Inv :=
  h.withEng (h.engInv.respond fun hop => by rw [hop]; rfl)

/-- `BLK` after a slice that leaves the engine busy (R30). -/
theorem State.slice_blk_of_busy (h : s.slice.eng.busy = true) : s.slice.eng.blk = s.eng.blk + 1 := by
  rw [State.slice_busy, Bool.and_eq_true, Bool.not_eq_true'] at h
  rw [State.slice_of_soft h.2]
  rfl

theorem State.Inv.scan (h : s.Inv) (hbusy : s.eng.busy = true) {k : Nat} (hk : s.eng.blk + k = s.eng.n) :
    (scan k s).Inv := by
  refine scan_rule (P := fun k t => t.Inv ∧ t.eng.busy = true ∧ t.eng.blk + k = t.eng.n) (Q := State.Inv)
    ?next ?abort ?done k s ⟨h, hbusy, hk⟩
  case next =>
    rintro k t ⟨hinv, htbusy, hleft⟩ hb
    refine ⟨hinv.slice htbusy (by omega), hb, ?_⟩
    rw [State.slice_blk_of_busy hb, State.slice_n]
    omega
  case abort =>
    rintro k t ⟨hinv, htbusy, hleft⟩ -
    exact hinv.slice htbusy (by omega)
  case done =>
    rintro t ⟨hinv, -, -⟩
    exact hinv.finish

/-! ### Commands, the engine's own step and the inputs keep `State.Inv` -/

theorem State.Inv.start (h : s.Inv) {c : Command} (hc : c.WellFormed s.params) (hacc : s.Accepts c) :
    State.Inv { s with eng := s.eng.start c } := by
  obtain ⟨hlen, hwraps, hoverlaps, -, -⟩ := hacc
  exact h.withEng (h.engInv.start h.paramsOk hc hlen hwraps hoverlaps)

theorem State.Inv.accept (h : s.Inv) {c : Command} {t : State} (hc : c.WellFormed s.params)
    (ht : s.accept c = .next t) : t.Inv := by
  rcases State.accept_next ht with ⟨-, rfl⟩ | ⟨hacc, rfl⟩
  · exact h.withEng (h.engInv.raiseLengthError hc)
  · exact h.start hc hacc

theorem State.Inv.runCommand (h : s.Inv) {c : Command} {t : State} (hc : c.WellFormed s.params)
    (ht : s.runCommand c = .next t) : t.Inv := by
  rcases State.runCommand_next ht with ⟨-, rfl⟩ | ⟨-, -, rfl⟩ | ⟨-, hacc, rfl⟩
  · exact h.withEng (h.engInv.enqueue hc)
  · exact h.withEng (h.engInv.raiseLengthError hc)
  · exact (h.start hc hacc).scan rfl (Nat.zero_add _)

theorem State.Inv.exec (h : s.Inv) {bs : List Byte} {i : Instr} {t : State} (hi : decode s.params bs = .ok i)
    (ht : exec i s = .next t) : t.Inv := by
  obtain ⟨c, hdec, hcmd⟩ := decode_command hi
  rw [exec_of_command hcmd] at ht
  exact h.runCommand (decodeCommand_wellFormed hdec) ht

theorem State.Inv.engineStep (h : s.Inv) {t : State} (ht : s.engineStep = .next t) : t.Inv := by
  rcases State.engineStep_next ht with ⟨hbusy, hblk, rfl⟩ | ⟨-, -, rfl⟩ | ⟨-, -, rfl⟩ | ⟨c, cs, -, hw, hacc⟩
  · exact h.slice hbusy hblk
  · exact h.finish
  · exact h
  · have hfit : ∀ q ∈ c :: cs, q.WellFormed s.params := hw ▸ h.engInv.waitingFits
    have hrest := h.withEng (h.engInv.withWaiting fun q hq => hfit q (List.mem_cons_of_mem c hq))
    exact hrest.accept (hfit c List.mem_cons_self) hacc

theorem State.Inv.resetEngine (h : s.Inv) (made : Nat) : (s.resetEngine made).Inv := by
  have heng : (s.resetEngine made).eng.Inv s.params := (Engine.reset_inv _).withWaiting h.engInv.waitingFits
  by_cases hrun : s.eng.busy = true ∧ s.eng.blk < s.eng.n
  · have hmem : (s.resetEngine made).mem = Memory.writeAll s.mem ((s.eng.sliceWrites s.mem).take made) := by
      simp [State.resetEngine, hrun]
    have hfit := h.writeAll (ws := (s.eng.sliceWrites s.mem).take made) fun w hw =>
      h.sliceWrites_fit hrun.1 hrun.2 w (List.mem_of_mem_take hw)
    exact { h with engInv := heng, memWf := hmem ▸ hfit.memWf, memFits := hmem ▸ hfit.memFits }
  · have hmem : (s.resetEngine made).mem = s.mem := by
      simp only [State.resetEngine, Bool.and_eq_true, decide_eq_true_eq, if_neg hrun]
    exact { h with engInv := heng, memWf := hmem ▸ h.memWf, memFits := hmem ▸ h.memFits }

theorem State.Inv.switchEngine (h : s.Inv) {k : Nat} {t : State} (ht : s.switchEngine k = .next t) : t.Inv := by
  obtain ⟨e, he, rfl⟩ := State.switchEngine_next ht
  exact { h with
    engInv := h.othersInv e (List.mem_of_getElem? he)
    othersInv := fun f hf => (List.mem_or_eq_of_mem_set hf).elim (h.othersInv f) fun hf => hf ▸ h.engInv }

end

/-- Settles O48, by the inversion of a step: each input's operation keeps the invariant. -/
theorem stepKeepsTheInvariant : Obligations.StepKeepsTheInvariant := by
  intro s t h ht
  rcases step_next ht with ⟨-, ht⟩ | ⟨input, rest, -, hinput⟩
  · exact h.engineStep ht
  · have hs := h.withInputs rest
    rcases hinput with ⟨bs, i, -, hi, ht⟩ | ⟨bs, -, ht⟩ | ⟨-, ht⟩ | ⟨a, v, -, ht⟩ | ⟨a, -, ht⟩ |
      ⟨made, -, rfl⟩ | ⟨k, -, ht⟩
    · exact hs.exec hi ht
    · obtain ⟨c, hc, rfl⟩ := State.presentCommand_next ht
      exact hs.withEng (hs.engInv.enqueue (decodeCommand_wellFormed hc))
    · exact hs.engineStep ht
    · obtain ⟨ha, -, -, rfl⟩ := State.hostWrite_next ht
      exact hs.writeAll (ws := [(a, v)]) (by simpa using ha)
    · obtain ⟨-, -, -, rfl⟩ := State.hostRead_next ht
      exact { hs with }
    · exact hs.resetEngine made
    · exact hs.switchEngine ht

/-- Settles O47: the reset state has one engine and lists no memory. -/
theorem resetMeetsTheInvariant : Obligations.ResetMeetsTheInvariant := by
  refine ⟨⟨by decide, Engine.reset_inv _, nofun, reset_mem_wf, nofun, by decide⟩, ?_⟩
  exact List.pairwise_singleton _ _

end Sys2Proof.Machine
end

section
/-! PROOFS. The command interface of the engine: what a step does with its input, a command that waits, an engine at
rest, and what stays while a command runs. -/

namespace Sys2Proof.Machine

theorem Engine.idle_eq_true {e : Engine} : e.idle = true ↔ e.busy = false ∧ e.waiting = [] := by
  simp [Engine.idle]

theorem Engine.idle_eq_false {e : Engine} : e.idle = false ↔ e.busy = true ∨ e.waiting ≠ [] := by
  simp [Engine.idle, or_iff_not_imp_left]

/-- Settles O28: a command given to an engine that is not idle is put behind those that wait. -/
theorem commandWaitsWhileBusy : Obligations.CommandWaitsWhileBusy := by
  intro i c s hcmd hbusy
  rw [exec_of_command hcmd, State.runCommand_of_not_idle (Engine.idle_eq_false.mpr hbusy)]
  rfl

/-! ### One equation of `step` per input -/

section
variable {s : State} {rest : List HostInput} {bs : List Byte}

theorem step_of_no_input (hin : s.inputs = []) : step s = s.engineStep := by
  simp only [step, hin]

theorem step_run_of_decode {i : Instr} (hin : s.inputs = .run bs :: rest) (hi : decode s.params bs = .ok i) :
    step s = exec i { s with inputs := rest } := by
  simp only [step, hin, hi]

theorem step_run_of_error {e : DecodeError} (hin : s.inputs = .run bs :: rest)
    (he : decode s.params bs = .error e) : step s = .refused (.undecodable e) := by
  simp only [step, hin, he]

theorem step_present_of_decode {c : Command} (hin : s.inputs = .present bs :: rest)
    (hc : decodeCommand s.params bs = .ok c) :
    step s = .next { s with inputs := rest, eng := s.eng.enqueue c } := by
  simp only [step, hin, State.presentCommand, hc]

theorem step_present_of_error {e : DecodeError} (hin : s.inputs = .present bs :: rest)
    (he : decodeCommand s.params bs = .error e) : step s = .refused (.undecodable e) := by
  simp only [step, hin, State.presentCommand, he]

theorem step_tick (hin : s.inputs = .tick :: rest) : step s = State.engineStep { s with inputs := rest } := by
  simp only [step, hin]

theorem step_switch_of_some {k : Nat} {f : Engine} (hin : s.inputs = .switch k :: rest)
    (hf : s.others[k]? = some f) :
    step s = .next { s with inputs := rest, eng := f, others := s.others.set k s.eng } := by
  simp only [step, hin, State.switchEngine, hf]

theorem step_switch_of_none {k : Nat} (hin : s.inputs = .switch k :: rest) (hk : s.others[k]? = none) :
    step s = .fault (.noSuchEngine k) := by
  simp only [step, hin, State.switchEngine, hk]

end

/-- Bytes decode to no instruction exactly if they hold no command, and for the same reason. -/
theorem decodeCommand_of_decode_error {p : Params} {bs : List Byte} {e : DecodeError} (h : decode p bs = .error e) :
    decodeCommand p bs = .error e := by
  unfold decode at h
  split at h
  · cases h
  · rename_i hdec
    cases h
    exact hdec

/-- Settles O42: each clause is the equation of `step` for its input. -/
theorem stepRunsTheDecodedInstruction : Obligations.StepRunsTheDecodedInstruction := by
  refine ⟨fun s => step_of_no_input, fun s rest => ⟨?run, ?present, ?undecodable, step_tick, ?switch, ?noEngine⟩⟩
  case run => exact fun bs i => step_run_of_decode
  case present =>
    intro bs i c hin hi hcmd
    obtain ⟨c', hdec, hcmd'⟩ := decode_command hi
    obtain rfl : c = c' := Option.some.inj (hcmd.symm.trans hcmd')
    exact step_present_of_decode hin hdec
  case undecodable =>
    rintro bs e (hin | hin) he
    · exact step_run_of_error hin he
    · exact step_present_of_error hin (decodeCommand_of_decode_error he)
  case switch => exact fun k f => step_switch_of_some
  case noEngine => exact fun k hin hk => step_switch_of_none hin (List.getElem?_eq_none hk)

/-! ### An idle engine -/

theorem State.engineStep_of_rest {s : State} (hbusy : s.eng.busy = false) (hw : s.eng.waiting = []) :
    s.engineStep = .next s := by
  simp [State.engineStep, hbusy, hw]

theorem State.engineStep_of_waiting {s : State} {c : Command} {cs : List Command} (hbusy : s.eng.busy = false)
    (hw : s.eng.waiting = c :: cs) :
    s.engineStep = State.accept { s with eng := { s.eng with waiting := cs } } c := by
  simp [State.engineStep, hbusy, hw]

theorem corrAtStart_eq (op : Op) (corr : Bool) : corrAtStart op corr = if op = .verify then false else corr := by
  cases op <;> rfl

/-- Settles O50: with no input the step is the engine's own, which rests or accepts the oldest command that waits. -/
theorem idleEngineRestsOrAccepts : Obligations.IdleEngineRestsOrAccepts := by
  intro s hin hbusy
  rw [step_of_no_input hin]
  refine ⟨State.engineStep_of_rest hbusy, fun c cs hw hacc => ?_⟩
  rw [State.engineStep_of_waiting hbusy hw, ← corrAtStart_eq]
  exact State.accept_of_accepts (s := { s with eng := { s.eng with waiting := cs } }) hacc

/-! ### A running command -/

/-- What stays of an engine while its command runs: the fields and `N`; `BLK` is the same or one more, and new commands
wait behind the old ones. -/
def Engine.GoesOnAs (e f : Engine) : Prop :=
  f.cmd = e.cmd ∧ f.n = e.n ∧ (f.blk = e.blk ∨ f.blk = e.blk + 1) ∧ ∃ later, f.waiting = e.waiting ++ later

theorem Engine.GoesOnAs.refl (e : Engine) : e.GoesOnAs e := ⟨rfl, rfl, .inl rfl, [], by simp⟩

theorem Engine.goesOnAs_enqueue (e : Engine) (c : Command) : e.GoesOnAs (e.enqueue c) :=
  ⟨rfl, rfl, .inl rfl, [c], rfl⟩

theorem Engine.goesOnAs_respond (e : Engine) (err : Bool) (cls : Classification) : e.GoesOnAs (e.respond err cls) :=
  ⟨rfl, rfl, .inl rfl, [], by simp⟩

theorem State.goesOnAs_slice (s : State) : s.eng.GoesOnAs s.slice.eng := by
  refine ⟨s.slice_cmd, s.slice_n, ?_, [], by simp⟩
  cases hhard : (s.eng.sliceClass s.mem).hard
  · exact .inr (by rw [State.slice_of_soft hhard]; rfl)
  · exact .inl (by rw [State.slice_of_hard hhard]; rfl)

section
variable {s t : State}

theorem State.goesOnAs_engineStep (hbusy : s.eng.busy = true) (ht : s.engineStep = .next t) :
    s.eng.GoesOnAs t.eng := by
  rcases State.engineStep_next ht with ⟨-, -, rfl⟩ | ⟨-, -, rfl⟩ | ⟨hidle, -, -⟩ | ⟨c, cs, hidle, -, -⟩
  · exact s.goesOnAs_slice
  · exact s.eng.goesOnAs_respond _ _
  · exact absurd hbusy (by simp [hidle])
  · exact absurd hbusy (by simp [hidle])

theorem State.goesOnAs_exec (hbusy : s.eng.busy = true) {i : Instr} (ht : exec i s = .next t) :
    s.eng.GoesOnAs t.eng := by
  rcases exec_next ht with ⟨c, -, hrun⟩ | ⟨v, -, rfl⟩
  · rw [State.runCommand_of_not_idle (Engine.idle_eq_false.mpr (.inl hbusy))] at hrun
    cases hrun
    exact s.eng.goesOnAs_enqueue c
  · exact .refl _

end

/-- Settles O51, by the inversion of a step: the inputs but a reset and a switch leave the running engine to go on. -/
theorem runningCommandIsStable : Obligations.RunningCommandIsStable := by
  intro s t ht hbusy hreset hswitch
  change s.eng.GoesOnAs t.eng
  rcases step_next ht with ⟨-, ht⟩ | ⟨input, rest, hin, hinput⟩
  · exact State.goesOnAs_engineStep hbusy ht
  · rcases hinput with ⟨bs, i, -, -, ht⟩ | ⟨bs, -, ht⟩ | ⟨-, ht⟩ | ⟨a, v, -, ht⟩ | ⟨a, -, ht⟩ |
      ⟨made, rfl, -⟩ | ⟨k, rfl, -⟩
    · exact State.goesOnAs_exec (s := { s with inputs := rest }) hbusy ht
    · obtain ⟨c, -, rfl⟩ := State.presentCommand_next ht
      exact s.eng.goesOnAs_enqueue c
    · exact State.goesOnAs_engineStep (s := { s with inputs := rest }) hbusy ht
    · obtain ⟨-, -, -, rfl⟩ := State.hostWrite_next ht
      exact .refl _
    · obtain ⟨-, -, -, rfl⟩ := State.hostRead_next ht
      exact .refl _
    · exact absurd hin (hreset made rest)
    · exact absurd hin (hswitch k rest)

end Sys2Proof.Machine
end

section
/-! PROOFS. A whole command in closed form: what each slice does, in terms of the memory that the command found, and the
state that the scan reaches. -/

namespace Sys2Proof.Machine

/-! ### A block's registers, code and correction depend on its 256 bytes only -/

section
variable {D E : Nat → Byte} (h : ∀ i < 256, D i = E i)
include h

theorem Work.accumulate_congr (r : Work) : r.accumulate D = r.accumulate E := by
  have hcs : columnSum D = columnSum E := xorFold_congr h
  have hle : linesEven D = linesEven E := xorFold_congr fun i hi => by simp only [lineEven, h i hi]
  have hlo : linesOdd D = linesOdd E := xorFold_congr fun i hi => by simp only [lineOdd, h i hi]
  rw [Work.accumulate_eq, Work.accumulate_eq, hcs, hle, hlo]

theorem Work.compute256_congr (r : Work) : r.compute256 D = r.compute256 E := by
  rw [Work.compute256, Work.compute256, Work.accumulate_congr h]

theorem codeOf_congr : codeOf D = codeOf E := by
  rw [codeOf, codeOf, Work.compute256_congr h]

theorem Work.verify256_congr (sc : Code) (r : Work) : r.verify256 D sc = r.verify256 E sc := by
  simp only [Work.verify256, Work.syndrome, Work.compute256_congr h]

theorem correction_congr (dp : Nat) (sy : Code) : correction D dp sy = correction E dp sy := by
  rw [correction, correction, h _ (byteOffset sy).isLt]

end

/-- The last block alone decides what COMPUTE256 leaves (R134). -/
theorem Work.compute256_compute256 (D E : Nat → Byte) (r : Work) :
    (r.compute256 D).compute256 E = r.compute256 E := by
  simp only [Work.compute256_eq]

theorem Memory.writeAll_append (m ws vs : List Host.Cell) :
    Memory.writeAll m (ws ++ vs) = Memory.writeAll (Memory.writeAll m ws) vs := by
  simp [Memory.writeAll, List.foldl_append]

/-! ### The slices of a command, on the memory that it found -/

/-- The classification that slice `j` has for the scan; COMPUTE has none and goes on like NoError (R152). -/
def sliceClassAt (m : List Host.Cell) (c : Command) (j : Nat) : Classification :=
  match c.op with
  | .compute => .noError
  | .verify => classAt m c j

/-- The byte writes of slice `j` (R60). -/
def sliceWritesAt (m : List Host.Cell) (c : Command) (j : Nat) : List Host.Cell :=
  let code := codeOf (blockAt m (c.dbase + 256 * j))
  match c.op with
  | .compute =>
    [(c.cbase + 3 * j, code.b0), (c.cbase + 3 * j + 1, code.b1), (c.cbase + 3 * j + 2, code.b2)]
  | .verify => correction (blockAt m (c.dbase + 256 * j)) (c.dbase + 256 * j) (syndromeAt m c j)

/-- The working registers after slice `j`, from those before it. -/
def sliceWorkAt (m : List Host.Cell) (c : Command) (r : Work) (j : Nat) : Work :=
  match c.op with
  | .compute => r.compute256 (blockAt m (c.dbase + 256 * j))
  | .verify => r.verify256 (blockAt m (c.dbase + 256 * j)) (codeAt m (c.cbase + 3 * j))

/-- The byte writes of the first `k` slices. -/
def slicesWrites (m : List Host.Cell) (c : Command) (k : Nat) : List Host.Cell :=
  (List.range k).flatMap (sliceWritesAt m c)

/-- The working registers after the first `k` slices. -/
def slicesWork (m : List Host.Cell) (c : Command) (r : Work) (k : Nat) : Work :=
  (List.range k).foldl (sliceWorkAt m c) r

/-- `CORR` after the first `k` slices, from its value before the command (R34, R183). -/
def slicesCorr (m : List Host.Cell) (c : Command) (corr : Bool) (k : Nat) : Bool :=
  (List.range k).any (fun j => sliceClassAt m c j == .singleBitCorrected) || corrAtStart c.op corr

/-- The slices before the first hard failure: `slicesPassed` for a VERIFY, all of them for a COMPUTE. -/
def slicesDone (m : List Host.Cell) (c : Command) : Nat :=
  ((List.range (blocks c.len)).takeWhile fun j => !(sliceClassAt m c j).hard).length

section
variable (m : List Host.Cell) (c : Command)

theorem slicesWrites_succ (k : Nat) : slicesWrites m c (k + 1) = slicesWrites m c k ++ sliceWritesAt m c k := by
  simp [slicesWrites, List.range_succ, List.flatMap_append]

theorem slicesWork_succ (r : Work) (k : Nat) :
    slicesWork m c r (k + 1) = sliceWorkAt m c (slicesWork m c r k) k := by
  simp [slicesWork, List.range_succ]

theorem slicesCorr_succ (corr : Bool) (k : Nat) :
    slicesCorr m c corr (k + 1) = corrAfter (sliceClassAt m c k) (slicesCorr m c corr k) := by
  simp [slicesCorr, corrAfter, List.range_succ, Bool.or_assoc, Bool.or_left_comm]

end

section
variable {m : List Host.Cell} {c : Command}

theorem sliceClassAt_compute (hop : c.op = .compute) (m : List Host.Cell) (j : Nat) :
    sliceClassAt m c j = .noError := by
  simp only [sliceClassAt, hop]

theorem sliceClassAt_verify (hop : c.op = .verify) (m : List Host.Cell) : sliceClassAt m c = classAt m c := by
  funext j
  simp only [sliceClassAt, hop]

theorem sliceWritesAt_verify (hop : c.op = .verify) (m : List Host.Cell) (j : Nat) :
    sliceWritesAt m c j =
      correction (blockAt m (c.dbase + 256 * j)) (c.dbase + 256 * j) (syndromeAt m c j) := by
  simp only [sliceWritesAt, hop]

theorem sliceWorkAt_compute (hop : c.op = .compute) (m : List Host.Cell) (r : Work) (j : Nat) :
    sliceWorkAt m c r j = r.compute256 (blockAt m (c.dbase + 256 * j)) := by
  simp only [sliceWorkAt, hop]

theorem sliceWorkAt_verify (hop : c.op = .verify) (m : List Host.Cell) (r : Work) (j : Nat) :
    sliceWorkAt m c r j = r.verify256 (blockAt m (c.dbase + 256 * j)) (codeAt m (c.cbase + 3 * j)) := by
  simp only [sliceWorkAt, hop]

/-- A slice with a hard failure writes nothing (R168). -/
theorem sliceWritesAt_of_hard {j : Nat} (h : (sliceClassAt m c j).hard = true) : sliceWritesAt m c j = [] := by
  cases hop : c.op
  · rw [sliceClassAt_compute hop] at h
    cases h
  · rw [sliceWritesAt_verify hop, correction, if_neg]
    intro hclass
    rw [sliceClassAt_verify hop, classAt, hclass] at h
    cases h

/-- A slice with a hard failure corrects nothing (R168). -/
theorem corrAfter_of_hard {cls : Classification} (h : cls.hard = true) (corr : Bool) : corrAfter cls corr = corr := by
  have hne : cls ≠ .singleBitCorrected := by
    rintro rfl
    cases h
  simp [corrAfter, hne]

theorem slicesCorr_compute (hop : c.op = .compute) (corr : Bool) (k : Nat) : slicesCorr m c corr k = corr := by
  simp [slicesCorr, sliceClassAt_compute hop, corrAtStart, hop]

theorem slicesCorr_verify (hop : c.op = .verify) (corr : Bool) (k : Nat) :
    slicesCorr m c corr k = (List.range k).any fun j => classAt m c j == .singleBitCorrected := by
  simp [slicesCorr, sliceClassAt_verify hop, corrAtStart, hop]

theorem slicesWork_compute (hop : c.op = .compute) (r : Work) (k : Nat) :
    slicesWork m c r (k + 1) = r.compute256 (blockAt m (c.dbase + 256 * k)) := by
  induction k with
  | zero => exact sliceWorkAt_compute hop m r 0
  | succ k ih => rw [slicesWork_succ, ih, sliceWorkAt_compute hop, Work.compute256_compute256]

/-- The writes of the first `k` slices lie in the code bytes, or in the blocks, of these slices (R60). -/
theorem mem_slicesWrites {k : Nat} {w : Host.Cell} (h : w ∈ slicesWrites m c k) :
    (c.op = .compute ∧ c.cbase ≤ w.1 ∧ w.1 < c.cbase + 3 * k) ∨
      (c.op = .verify ∧ c.dbase ≤ w.1 ∧ w.1 < c.dbase + 256 * k) := by
  obtain ⟨j, hj, hw⟩ := List.mem_flatMap.mp h
  rw [List.mem_range] at hj
  cases hop : c.op
  · simp only [sliceWritesAt, hop, List.mem_cons, List.not_mem_nil, or_false] at hw
    rcases hw with rfl | rfl | rfl <;> exact .inl ⟨rfl, by dsimp only; omega, by dsimp only; omega⟩
  · rw [sliceWritesAt_verify hop] at hw
    obtain ⟨-, rfl⟩ := correction_mem hw
    have := (byteOffset (syndromeAt m c j)).isLt
    exact .inr ⟨rfl, by dsimp only; omega, by dsimp only; omega⟩

end

/-! ### How many slices are done -/

/-- The length of the leading part of `0, 1, ..., n - 1` that satisfies `f`. -/
theorem length_takeWhile_range (f : Nat → Bool) (n : Nat) :
    ((List.range n).takeWhile f).length ≤ n ∧
      (∀ i < ((List.range n).takeWhile f).length, f i = true) ∧
      (((List.range n).takeWhile f).length < n → f ((List.range n).takeWhile f).length = false) := by
  induction n with
  | zero => simp
  | succ n ih =>
    obtain ⟨hle, hall, hstop⟩ := ih
    rw [List.range_succ, List.takeWhile_append, List.length_range]
    split
    case isTrue hfull =>
      rw [hfull] at hall
      cases hn : f n
      · simpa [hn] using hall
      · simp only [hn, List.takeWhile_cons_of_pos, List.takeWhile_nil, List.length_append, List.length_range,
          List.length_singleton]
        refine ⟨le_rfl, fun i hi => ?_, fun h => absurd h (lt_irrefl _)⟩
        rcases Nat.lt_succ_iff_lt_or_eq.mp hi with hi | rfl
        · exact hall i hi
        · exact hn
    case isFalse hpart => exact ⟨by omega, hall, fun _ => hstop (by omega)⟩

section
variable {m : List Host.Cell} {c : Command}

theorem slicesDone_le : slicesDone m c ≤ blocks c.len := (length_takeWhile_range _ _).1

theorem soft_of_lt_slicesDone {j : Nat} (h : j < slicesDone m c) : (sliceClassAt m c j).hard = false :=
  Bool.not_eq_true' _ ▸ (length_takeWhile_range _ _).2.1 j h

theorem hard_at_slicesDone (h : slicesDone m c < blocks c.len) : (sliceClassAt m c (slicesDone m c)).hard = true :=
  Bool.not_eq_false' _ ▸ (length_takeWhile_range _ _).2.2 h

theorem slicesDone_verify (hop : c.op = .verify) (m : List Host.Cell) : slicesDone m c = slicesPassed m c := by
  rw [slicesDone, slicesPassed, sliceClassAt_verify hop]

theorem slicesDone_compute (hop : c.op = .compute) (m : List Host.Cell) : slicesDone m c = blocks c.len := by
  by_contra hne
  have hhard := hard_at_slicesDone (lt_of_le_of_ne slicesDone_le hne)
  rw [sliceClassAt_compute hop] at hhard
  cases hhard

end

/-! ### The state between two slices -/

/-- The state after the first `j` slices of a command that an engine accepted in state `s`. -/
def State.afterSlices (s : State) (c : Command) (j : Nat) : State :=
  { s with
    mem := Memory.writeAll s.mem (slicesWrites s.mem c j)
    eng := { s.eng.start c with
      work := slicesWork s.mem c s.eng.work j
      blk := j
      dp := (c.dbase + 256 * j) % 2 ^ s.params.aw
      cp := (c.cbase + 3 * j) % 2 ^ s.params.aw
      corr := slicesCorr s.mem c s.eng.corr j } }

/-- The state after an accepted command: the writes of the slices before the first hard failure, the registers of the
last slice examined, and the response (R153, R184, R185). -/
def State.afterCommand (s : State) (c : Command) : State :=
  let k := slicesDone s.mem c
  { s.afterSlices c k with
    eng := { (s.afterSlices c k).eng with
      work := slicesWork s.mem c s.eng.work (min k (blocks c.len - 1) + 1)
      err := false
      cls :=
        if k < blocks c.len then sliceClassAt s.mem c k else finalClass c.op (slicesCorr s.mem c s.eng.corr k)
      busy := false } }

section
variable {s : State} {c : Command}

/-- The buffers of an accepted command in numbers: below the top of the address space (R65), and with no byte in common
(R64). -/
theorem State.Accepts.buffers (hacc : s.Accepts c) :
    c.len = 256 * blocks c.len ∧ 1 ≤ blocks c.len ∧ c.dbase + 256 * blocks c.len ≤ 2 ^ s.params.aw ∧
      c.cbase + 3 * blocks c.len ≤ 2 ^ s.params.aw ∧
      (c.dbase + 256 * blocks c.len ≤ c.cbase ∨ c.cbase + 3 * blocks c.len ≤ c.dbase) := by
  obtain ⟨hlegal, hwraps, hoverlaps, -, -⟩ := hacc
  have hlen := len_of_legal hlegal
  have hpos := (legalLength_iff.mp hlegal).2
  obtain ⟨hd, hc⟩ := Command.wraps_eq_false.mp hwraps
  refine ⟨hlen, hpos, by omega, hc, ?_⟩
  by_contra hmeet
  refine Command.overlaps_eq_false.mp hoverlaps (max c.dbase c.cbase) ?_ ?_ <;>
    simp only [Region.contains_iff, Command.dataBuffer, Command.codeBuffer] <;> omega

theorem State.afterSlices_zero (hacc : s.Accepts c) : s.afterSlices c 0 = { s with eng := s.eng.start c } := by
  obtain ⟨-, hpos, hd, hc, -⟩ := hacc.buffers
  have hdp : c.dbase % 2 ^ s.params.aw = c.dbase := Nat.mod_eq_of_lt (by omega)
  have hcp : c.cbase % 2 ^ s.params.aw = c.cbase := Nat.mod_eq_of_lt (by omega)
  simp [State.afterSlices, slicesWrites, slicesWork, slicesCorr, Engine.start, hdp, hcp]

/-- The slices before slice `j` write no byte of its block (R61, R64). -/
theorem State.blockAt_afterSlices (hacc : s.Accepts c) {j : Nat} (hj : j < blocks c.len) :
    ∀ i < 256, blockAt (s.afterSlices c j).mem (c.dbase + 256 * j) i = blockAt s.mem (c.dbase + 256 * j) i := by
  intro i hi
  obtain ⟨-, -, -, -, hdisjoint⟩ := hacc.buffers
  refine Memory.read_writeAll_of_unwritten (fun w hw => ?_) s.mem
  have hplace := mem_slicesWrites hw
  omega

/-- The slices of a VERIFY write no code byte (R60, R64). -/
theorem State.codeAt_afterSlices (hacc : s.Accepts c) (hop : c.op = .verify) {j : Nat} (hj : j < blocks c.len) :
    codeAt (s.afterSlices c j).mem (c.cbase + 3 * j) = codeAt s.mem (c.cbase + 3 * j) := by
  obtain ⟨-, -, -, -, hdisjoint⟩ := hacc.buffers
  have hread : ∀ k < 3, Memory.read (s.afterSlices c j).mem (c.cbase + 3 * j + k) =
      Memory.read s.mem (c.cbase + 3 * j + k) := by
    intro k hk
    refine Memory.read_writeAll_of_unwritten (fun w hw => ?_) s.mem
    rcases mem_slicesWrites hw with ⟨hcompute, -⟩ | hplace
    · rw [hop] at hcompute
      cases hcompute
    · omega
  simp only [codeAt]
  rw [hread 1 (by decide), hread 2 (by decide)]
  exact congrArg (Code.mk · _ _) (hread 0 (by decide))

theorem State.afterSlices_dp (hacc : s.Accepts c) {j : Nat} (hj : j < blocks c.len) :
    (s.afterSlices c j).eng.dp = c.dbase + 256 * j := by
  obtain ⟨-, -, hd, -, -⟩ := hacc.buffers
  exact Nat.mod_eq_of_lt (by omega)

theorem State.afterSlices_cp (hacc : s.Accepts c) {j : Nat} (hj : j < blocks c.len) :
    (s.afterSlices c j).eng.cp = c.cbase + 3 * j := by
  obtain ⟨-, -, -, hc, -⟩ := hacc.buffers
  exact Nat.mod_eq_of_lt (by omega)

/-! ### Slice `j` works as on the memory that the command found -/

theorem State.sliceWork_afterSlices (hacc : s.Accepts c) {j : Nat} (hj : j < blocks c.len) :
    (s.afterSlices c j).eng.sliceWork (s.afterSlices c j).mem = slicesWork s.mem c s.eng.work (j + 1) := by
  have hblock := State.blockAt_afterSlices hacc hj
  rw [slicesWork_succ]
  cases hop : c.op
  · rw [sliceWorkAt_compute hop, Engine.sliceWork_compute (show (s.afterSlices c j).eng.cmd.op = _ from hop),
      State.afterSlices_dp hacc hj, Work.compute256_congr hblock]
    rfl
  · rw [sliceWorkAt_verify hop, Engine.sliceWork_verify (show (s.afterSlices c j).eng.cmd.op = _ from hop),
      State.afterSlices_dp hacc hj, State.afterSlices_cp hacc hj, State.codeAt_afterSlices hacc hop hj,
      Work.verify256_congr hblock]
    rfl

theorem State.sliceClass_afterSlices (hacc : s.Accepts c) {j : Nat} (hj : j < blocks c.len) :
    (s.afterSlices c j).eng.sliceClass (s.afterSlices c j).mem = sliceClassAt s.mem c j := by
  cases hop : c.op
  · rw [sliceClassAt_compute hop, Engine.sliceClass_compute (show (s.afterSlices c j).eng.cmd.op = _ from hop)]
  · rw [sliceClassAt_verify hop, Engine.sliceClass_verify (show (s.afterSlices c j).eng.cmd.op = _ from hop),
      State.afterSlices_dp hacc hj, State.afterSlices_cp hacc hj, State.codeAt_afterSlices hacc hop hj,
      codeOf_congr (State.blockAt_afterSlices hacc hj)]
    rfl

theorem State.sliceWrites_afterSlices (hacc : s.Accepts c) {j : Nat} (hj : j < blocks c.len) :
    (s.afterSlices c j).eng.sliceWrites (s.afterSlices c j).mem = sliceWritesAt s.mem c j := by
  have hblock := State.blockAt_afterSlices hacc hj
  cases hop : c.op
  · rw [Engine.sliceWrites_compute (show (s.afterSlices c j).eng.cmd.op = _ from hop),
      State.afterSlices_dp hacc hj, State.afterSlices_cp hacc hj, codeOf_congr hblock]
    simp only [sliceWritesAt, hop]
  · rw [sliceWritesAt_verify hop, Engine.sliceWrites_verify (show (s.afterSlices c j).eng.cmd.op = _ from hop),
      State.afterSlices_dp hacc hj, State.afterSlices_cp hacc hj, State.codeAt_afterSlices hacc hop hj,
      codeOf_congr hblock, correction_congr hblock]
    rfl

theorem State.slice_afterSlices_mem (hacc : s.Accepts c) {j : Nat} (hj : j < blocks c.len) :
    (s.afterSlices c j).slice.mem = Memory.writeAll s.mem (slicesWrites s.mem c (j + 1)) := by
  rw [State.slice_mem, State.sliceWrites_afterSlices hacc hj, slicesWrites_succ, Memory.writeAll_append]
  rfl

/-- A slice changes the engine that moves and the memory. -/
theorem State.slice_eq {e : Engine} {m : List Host.Cell} (heng : s.slice.eng = e) (hmem : s.slice.mem = m) :
    s.slice = { s with eng := e, mem := m } := by
  subst heng hmem
  rfl

/-- A slice without a hard failure leads to the state after one slice more. -/
theorem State.slice_afterSlices_of_soft (hacc : s.Accepts c) {j : Nat} (hj : j < blocks c.len)
    (hsoft : (sliceClassAt s.mem c j).hard = false) : (s.afterSlices c j).slice = s.afterSlices c (j + 1) := by
  have hclass := State.sliceClass_afterSlices hacc hj
  have heng : (s.afterSlices c j).slice.eng = (s.afterSlices c (j + 1)).eng := by
    rw [State.slice_of_soft (hclass ▸ hsoft), hclass, State.sliceWork_afterSlices hacc hj]
    simp [Engine.advance, State.afterSlices, slicesCorr_succ, Nat.mul_add, Nat.add_assoc]
  have hmem := State.slice_afterSlices_mem hacc hj
  exact State.slice_eq heng hmem

/-- A slice with a hard failure ends the command. -/
theorem State.slice_afterSlices_of_hard (hacc : s.Accepts c) (hk : slicesDone s.mem c < blocks c.len) :
    (s.afterSlices c (slicesDone s.mem c)).slice = s.afterCommand c := by
  have hhard := hard_at_slicesDone hk
  have hclass := State.sliceClass_afterSlices hacc hk
  have hlast : min (slicesDone s.mem c) (blocks c.len - 1) = slicesDone s.mem c := by omega
  have heng : (s.afterSlices c (slicesDone s.mem c)).slice.eng = (s.afterCommand c).eng := by
    rw [State.slice_of_hard (hclass ▸ hhard), hclass, State.sliceWork_afterSlices hacc hk, corrAfter_of_hard hhard]
    simp only [State.afterCommand, hlast, if_pos hk, Engine.respond]
  have hmem : (s.afterSlices c (slicesDone s.mem c)).slice.mem = (s.afterCommand c).mem := by
    rw [State.slice_afterSlices_mem hacc hk, slicesWrites_succ, sliceWritesAt_of_hard hhard, List.append_nil]
    rfl
  exact State.slice_eq heng hmem

/-- After the last slice the response ends the command. -/
theorem State.finish_afterSlices (hacc : s.Accepts c) (hk : slicesDone s.mem c = blocks c.len) :
    (s.afterSlices c (blocks c.len)).finish = s.afterCommand c := by
  obtain ⟨-, hpos, -⟩ := hacc.buffers
  have hlast : min (blocks c.len) (blocks c.len - 1) + 1 = blocks c.len := by omega
  simp only [State.afterCommand, hk, hlast, lt_irrefl, if_false]
  rfl

/-- The scan from slice `j` on reaches the closed form. -/
theorem State.scan_afterSlices (hacc : s.Accepts c) (k : Nat) :
    ∀ j, j + k = blocks c.len → j ≤ slicesDone s.mem c → scan k (s.afterSlices c j) = s.afterCommand c := by
  have hdone := slicesDone_le (m := s.mem) (c := c)
  induction k with
  | zero =>
    intro j hj hle
    obtain rfl : j = blocks c.len := by omega
    exact State.finish_afterSlices hacc (by omega)
  | succ k ih =>
    intro j hj hle
    have hjn : j < blocks c.len := by omega
    have hbusy := State.slice_busy (s.afterSlices c j)
    rw [State.sliceClass_afterSlices hacc hjn] at hbusy
    rcases Nat.lt_or_eq_of_le hle with hlt | rfl
    · have hsoft := soft_of_lt_slicesDone hlt
      rw [hsoft] at hbusy
      rw [scan_succ_of_busy hbusy, State.slice_afterSlices_of_soft hacc hjn hsoft]
      exact ih (j + 1) (by omega) hlt
    · rw [hard_at_slicesDone hjn, Bool.not_true, Bool.and_false] at hbusy
      rw [scan_succ_of_not_busy hbusy, State.slice_afterSlices_of_hard hacc hjn]

theorem State.scan_start (hacc : s.Accepts c) :
    scan (blocks c.len) { s with eng := s.eng.start c } = s.afterCommand c := by
  rw [← State.afterSlices_zero hacc]
  exact State.scan_afterSlices hacc _ 0 (Nat.zero_add _) (Nat.zero_le _)

/-- A command that an idle engine accepts, as one step. -/
theorem exec_of_accepts {i : Instr} (hcmd : i.command = some c) (hidle : s.eng.idle = true) (hacc : s.Accepts c) :
    exec i s = .next (s.afterCommand c) := by
  rw [exec_of_command hcmd, State.runCommand_of_accepts hidle hacc, State.scan_start hacc]

/-- Whatever an instruction that is a command answers as a next state is one of these three. -/
theorem exec_command_next {i : Instr} {t : State} (hcmd : i.command = some c) (ht : exec i s = .next t) :
    (s.eng.idle = false ∧ t = { s with eng := s.eng.enqueue c }) ∨
      (s.eng.idle = true ∧ legalLength c.len = false ∧ t = { s with eng := s.eng.raiseLengthError c }) ∨
      (s.eng.idle = true ∧ s.Accepts c ∧ t = s.afterCommand c) := by
  rw [exec_of_command hcmd] at ht
  rcases State.runCommand_next ht with h | h | ⟨hidle, hacc, rfl⟩
  · exact .inl h
  · exact .inr (.inl h)
  · exact .inr (.inr ⟨hidle, hacc, State.scan_start hacc⟩)

end

end Sys2Proof.Machine
end

section
/-! PROOFS. The state after a whole command, read off its closed form: registers, frame, and independence of what ran
before. -/

namespace Sys2Proof.Machine

/-! ### Registers -/

/-- Settles O31: the closed form of the command, whose last COMPUTE256 overwrites what the earlier ones left. -/
theorem computeRegisters : Obligations.ComputeRegisters := by
  intro i c s hcmd hop hidle hacc
  obtain ⟨hlen, hpos, -⟩ := hacc.buffers
  have hdone := slicesDone_compute hop s.mem
  refine ⟨s.afterCommand c, exec_of_accepts hcmd hidle hacc, rfl, rfl, hdone, ?dp, ?cp, ?work⟩
  case dp =>
    change (c.dbase + 256 * slicesDone s.mem c) % _ = _
    rw [hdone, ← hlen]
  case cp =>
    change (c.cbase + 3 * slicesDone s.mem c) % _ = _
    rw [hdone]
    rfl
  case work =>
    change slicesWork s.mem c s.eng.work (min (slicesDone s.mem c) (blocks c.len - 1) + 1) = _
    have hlast : 256 * min (blocks c.len) (blocks c.len - 1) = c.len - 256 := by omega
    rw [slicesWork_compute hop, hdone, hlast]

/-- Settles O32: the closed form of the command; the registers that VERIFY256 always writes are those of the last slice
examined. -/
theorem verifyRegisters : Obligations.VerifyRegisters := by
  intro i c s hcmd hop hidle hacc
  have hdone := slicesDone_verify hop s.mem
  refine ⟨s.afterCommand c, exec_of_accepts hcmd hidle hacc, rfl, rfl, hdone, ?dp, ?cp, ?corr, ?work⟩
  case dp => exact congrArg (fun k => (c.dbase + 256 * k) % _) hdone
  case cp => exact congrArg (fun k => (c.cbase + 3 * k) % _) hdone
  case corr => exact hdone ▸ slicesCorr_verify hop _ _
  case work =>
    intro k D sc w
    have hw : w = slicesWork s.mem c s.eng.work (k + 1) := by
      simp only [w, k, ← hdone]
      rfl
    have hlast : w = (slicesWork s.mem c s.eng.work k).verify256 D sc := by
      rw [hw, slicesWork_succ, sliceWorkAt_verify hop]
    refine ⟨?_, ?_⟩
    · rw [hw, slicesWork]
      exact congrArg (fun f => List.foldl f _ _) (funext fun r => funext fun j => sliceWorkAt_verify hop s.mem r j)
    · rw [hlast, Work.verify256_eq]
      exact ⟨rfl, rfl, rfl, fun r => by simp⟩

/-! ### Frames -/

/-- The registers that only VERIFY256 writes, as COMPUTE leaves them (assumption 13). -/
theorem slicesWork_compute_frame {c : Command} (hop : c.op = .compute) (m : List Host.Cell) (r : Work) (k : Nat) :
    (slicesWork m c r (k + 1)).sc = r.sc ∧ (slicesWork m c r (k + 1)).sy = r.sy ∧
      (slicesWork m c r (k + 1)).w = r.w ∧ (slicesWork m c r (k + 1)).byteOff = r.byteOff ∧
      (slicesWork m c r (k + 1)).bitOff = r.bitOff := by
  simp [slicesWork_compute hop]

/-- Settles O29: a command that waits or has a bad length leaves all of it, and the closed form of one that runs writes
code bytes only. -/
theorem computeFrame : Obligations.ComputeFrame := by
  intro i c s t hcmd hop ht
  rcases exec_command_next hcmd ht with ⟨hidle, rfl⟩ | ⟨hidle, -, rfl⟩ | ⟨hidle, hacc, rfl⟩
  · simp [hidle]
  · simp [hidle]
  · obtain ⟨hsc, hsy, hw, hbyte, hbit⟩ := slicesWork_compute_frame hop s.mem s.eng.work
      (min (slicesDone s.mem c) (blocks c.len - 1))
    refine ⟨rfl, rfl, rfl, rfl, rfl, rfl, slicesCorr_compute hop _ _, hsc, hsy, hw, hbyte, hbit, (if_pos hidle).symm,
      fun a ha => Memory.read_writeAll_of_unwritten (fun w hw hwa => ha ?_) s.mem⟩
    have hdone : slicesDone s.mem c ≤ c.len / 256 := slicesDone_le
    rcases mem_slicesWrites hw with ⟨-, hlo, hhi⟩ | ⟨hverify, -⟩
    · exact ⟨hidle, hacc.1, by omega, by omega⟩
    · rw [hop] at hverify
      cases hverify

/-- The byte at address `a` after the corrections of the first `k` slices, in the words of `verifiedByte`. -/
def correctedByte (m : List Host.Cell) (c : Command) (k a : Nat) : Byte :=
  let j := (a - c.dbase) / 256
  let sy := syndromeAt m c j
  if c.dbase ≤ a ∧ j < k ∧ classify sy = .singleBitCorrected ∧ (a - c.dbase) % 256 = (byteOffset sy).toNat then
    flipBit (Memory.read m a) (bitOffset sy).toNat
  else Memory.read m a

theorem verifiedByte_eq_correctedByte (m : List Host.Cell) (c : Command) (a : Nat) :
    verifiedByte m c a = correctedByte m c (slicesPassed m c) a := rfl

/-- A read after the correction of a block (R165, R168). -/
theorem read_writeAll_correction (m : List Host.Cell) (D : Nat → Byte) (dp : Nat) (sy : Code) (a : Nat) :
    Memory.read (Memory.writeAll m (correction D dp sy)) a =
      if classify sy = .singleBitCorrected ∧ a = dp + (byteOffset sy).toNat then
        flipBit (D (byteOffset sy).toNat) (bitOffset sy).toNat
      else Memory.read m a := by
  unfold correction
  split
  case isTrue hclass => simp [hclass, Memory.read_write]
  case isFalse hclass => simp [hclass]

theorem correctedByte_succ (m : List Host.Cell) (c : Command) (k a : Nat) :
    correctedByte m c (k + 1) a =
      if classify (syndromeAt m c k) = .singleBitCorrected ∧
          a = c.dbase + 256 * k + (byteOffset (syndromeAt m c k)).toNat then
        flipBit (Memory.read m a) (bitOffset (syndromeAt m c k)).toNat
      else correctedByte m c k a := by
  have hoff := (byteOffset (syndromeAt m c k)).isLt
  by_cases hj : c.dbase ≤ a ∧ (a - c.dbase) / 256 = k
  · obtain ⟨hlo, rfl⟩ := hj
    have hiff : a = c.dbase + 256 * ((a - c.dbase) / 256) +
          (byteOffset (syndromeAt m c ((a - c.dbase) / 256))).toNat ↔
        (a - c.dbase) % 256 = (byteOffset (syndromeAt m c ((a - c.dbase) / 256))).toNat := by omega
    simp [correctedByte, hlo, hiff]
  · have hne : ¬a = c.dbase + 256 * k + (byteOffset (syndromeAt m c k)).toNat := by omega
    have hiff : (c.dbase ≤ a ∧ (a - c.dbase) / 256 < k + 1) ↔ (c.dbase ≤ a ∧ (a - c.dbase) / 256 < k) := by omega
    simp only [correctedByte, hne, and_false, if_false, ← and_assoc, hiff]

/-- Memory after the first `k` slices of a VERIFY. -/
theorem read_slicesWrites_verify {c : Command} (hop : c.op = .verify) (m : List Host.Cell) (k a : Nat) :
    Memory.read (Memory.writeAll m (slicesWrites m c k)) a = correctedByte m c k a := by
  induction k with
  | zero => simp [slicesWrites, correctedByte]
  | succ k ih =>
    rw [slicesWrites_succ, Memory.writeAll_append, sliceWritesAt_verify hop, read_writeAll_correction, ih,
      correctedByte_succ]
    exact ite_congr rfl (fun hcorrected => by rw [hcorrected.2]; rfl) fun _ => rfl

theorem State.read_afterCommand_verify {s : State} {c : Command} (hop : c.op = .verify) (a : Nat) :
    Memory.read (s.afterCommand c).mem a = verifiedByte s.mem c a := by
  rw [verifiedByte_eq_correctedByte, ← slicesDone_verify hop]
  exact read_slicesWrites_verify hop s.mem _ a

/-- VERIFY changes its data buffer only (R60). -/
theorem verifiedByte_of_outside {m : List Host.Cell} {c : Command} {a : Nat} (hlen : c.len = 256 * blocks c.len)
    (ha : ¬(c.dbase ≤ a ∧ a < c.dbase + c.len)) : verifiedByte m c a = Memory.read m a := by
  have hpassed : slicesPassed m c ≤ blocks c.len := (length_takeWhile_range _ _).1
  exact if_neg fun ⟨hlo, hj, _, _⟩ => ha ⟨hlo, by omega⟩

theorem verifiedByte_block (m : List Host.Cell) (c : Command) (j : Nat) {b : Nat} (hb : b < 256) :
    verifiedByte m c (c.dbase + 256 * j + b) =
      if j < slicesPassed m c ∧ classAt m c j = .singleBitCorrected ∧ b = (byteOffset (syndromeAt m c j)).toNat then
        flipBit (Memory.read m (c.dbase + 256 * j + b)) (bitOffset (syndromeAt m c j)).toNat
      else Memory.read m (c.dbase + 256 * j + b) := by
  have hdiv : (c.dbase + 256 * j + b - c.dbase) / 256 = j := by omega
  have hmod : (c.dbase + 256 * j + b - c.dbase) % 256 = b := by omega
  have hlo : c.dbase ≤ c.dbase + 256 * j + b := by omega
  simp only [verifiedByte, hdiv, hmod]
  exact if_congr (and_iff_right hlo) rfl rfl

/-- Settles O30: a command that waits or has a bad length leaves all of it, and one that runs leaves memory as
`verifiedByte` says. -/
theorem verifyFrame : Obligations.VerifyFrame := by
  intro i c s t hcmd hop ht
  rcases exec_command_next hcmd ht with ⟨hidle, rfl⟩ | ⟨hidle, hillegal, rfl⟩ | ⟨hidle, hacc, rfl⟩
  · simp [hidle]
  · simp [hidle, hillegal]
  · have hlegal := hacc.1
    obtain ⟨hlen, -⟩ := hacc.buffers
    refine ⟨rfl, rfl, rfl, rfl, rfl, rfl, (if_pos hidle).symm, fun a ha => ?_, fun j b _ hb => ?_⟩
    · rw [State.read_afterCommand_verify hop]
      exact verifiedByte_of_outside hlen fun hin => ha ⟨hidle, hlegal, hin⟩
    · rw [State.read_afterCommand_verify hop, verifiedByte_block _ _ _ hb]
      simp only [hidle, hlegal, true_and]

/-! ### What ran before -/

/-- The response depends on the command and the memory it found: `CORR` counts for a VERIFY only, which clears it. -/
theorem finalClass_slicesCorr (m : List Host.Cell) (c : Command) (corr corr' : Bool) (k : Nat) :
    finalClass c.op (slicesCorr m c corr k) = finalClass c.op (slicesCorr m c corr' k) := by
  cases hop : c.op
  · rfl
  · rw [slicesCorr_verify hop, slicesCorr_verify hop]

theorem State.afterCommand_cls (s : State) (c : Command) (e : Engine) :
    (State.afterCommand { s with eng := e } c).eng.cls = (s.afterCommand c).eng.cls := by
  simp only [State.afterCommand]
  rw [finalClass_slicesCorr _ _ e.corr s.eng.corr]

/-- A command that is refused is refused for a reason that does not depend on the engine. -/
theorem State.accept_refused {s : State} {c : Command} (hlen : legalLength c.len = true) (hacc : ¬s.Accepts c) :
    ∃ r, ∀ e, State.accept { s with eng := e } c = .refused r := by
  unfold State.accept
  cases hwraps : c.wraps s.params
  · cases hoverlaps : c.overlaps
    · cases htouches : c.touches s.nonStorage
      · cases hcontended : s.contended c
        · exact absurd ⟨hlen, hwraps, hoverlaps, htouches, hcontended⟩ hacc
        · have hothers : ∀ e, State.contended { s with eng := e } c = true := fun _ => hcontended
          exact ⟨.dataRace, fun e => by simp [hlen, hwraps, htouches, hothers]⟩
      · exact ⟨.noStorage, fun e => by simp [hlen, hwraps, htouches]⟩
    · exact ⟨.buffersOverlap, fun e => by simp [hlen, hwraps]⟩
  · exact ⟨.bufferWraps, fun e => by simp [hlen, hwraps]⟩

/-- Settles O34: a bad length, a refusal and a whole command each give an answer that does not depend on the engine. -/
theorem historyHasNoEffect : Obligations.HistoryHasNoEffect := by
  intro i c s e hcmd hs he
  by_cases hacc : s.Accepts c
  · exact .inr ⟨_, _, exec_of_accepts hcmd hs hacc, exec_of_accepts (s := { s with eng := e }) hcmd he hacc, rfl,
      (s.afterCommand_cls c e).symm, rfl⟩
  · rw [exec_of_command hcmd, exec_of_command hcmd]
    cases hlen : legalLength c.len
    · exact .inr ⟨_, _, State.runCommand_of_illegal hs hlen,
        State.runCommand_of_illegal (s := { s with eng := e }) he hlen, rfl, rfl, rfl⟩
    · obtain ⟨r, hr⟩ := State.accept_refused hlen hacc
      refine .inl ⟨r, ?_, ?_⟩
      · simp [State.runCommand, hs, hr s.eng]
      · simp [State.runCommand, he, hr e]

end Sys2Proof.Machine
end

section
/-! PROOFS. The memory that engines and the host share (20_memory.md): which buffers and addresses are refused, a host
write and the read that follows it, what a slice reads, and which commands run at once. -/

namespace Sys2Proof

open Machine

/-! ### The buffers of a command in numbers -/

section
variable {c : Command}

theorem Command.wraps_iff {p : Params} :
    c.wraps p = true ↔ 2 ^ p.aw < c.dbase + c.len ∨ 2 ^ p.aw < c.cbase + 3 * blocks c.len := by
  simp [Command.wraps]

theorem Command.overlaps_iff :
    c.overlaps = true ↔ ∃ a, c.dataBuffer.contains a = true ∧ c.codeBuffer.contains a = true := by
  rw [← Bool.not_eq_false, Command.overlaps_eq_false]
  push Not
  simp

end

end Sys2Proof

namespace Sys2Proof.Machine

theorem legalLength_of_ne_zero {len : Nat} (hpos : len ≠ 0) (hmod : len % 256 = 0) : legalLength len = true := by
  rw [legalLength_iff, blocks]
  omega

/-! ### Commands that are refused for their buffers -/

section
variable {s : State} {c : Command} (hlen : legalLength c.len = true)
include hlen

theorem State.accept_of_wraps (h : c.wraps s.params = true) : s.accept c = .refused .bufferWraps := by
  simp [State.accept, hlen, h]

theorem State.accept_of_overlaps (hwraps : c.wraps s.params = false) (h : c.overlaps = true) :
    s.accept c = .refused .buffersOverlap := by
  simp [State.accept, hlen, hwraps, h]

theorem State.accept_of_touches (hwraps : c.wraps s.params = false) (hoverlaps : c.overlaps = false)
    (h : c.touches s.nonStorage = true) : s.accept c = .refused .noStorage := by
  simp [State.accept, hlen, hwraps, hoverlaps, h]

end

/-- An idle engine refuses a command for the reason that acceptance has. -/
theorem exec_of_refused {i : Instr} {c : Command} {s : State} {r : Refusal} (hcmd : i.command = some c)
    (hidle : s.eng.idle = true) (h : s.accept c = .refused r) : exec i s = .refused r := by
  rw [exec_of_command hcmd]
  simp [State.runCommand, hidle, h]

/-- Settles O27: acceptance makes the three tests in the order of the clauses, after that of the length. -/
theorem badBuffersAreRefused : Obligations.BadBuffersAreRefused := by
  intro i c s hcmd hidle hpos hmod
  have hlen := legalLength_of_ne_zero hpos hmod
  refine ⟨fun hwraps => ?wraps, fun hd hc hboth => ?overlaps, fun hwraps hoverlaps hregion => ?noStorage⟩
  case wraps => exact exec_of_refused hcmd hidle (State.accept_of_wraps hlen (Command.wraps_iff.mpr hwraps))
  case overlaps =>
    have hoverlaps : c.overlaps = true := by
      simpa [Command.overlaps_iff, Command.dataBuffer, Command.codeBuffer, blocks] using hboth
    exact exec_of_refused hcmd hidle
      (State.accept_of_overlaps hlen (Command.wraps_eq_false.mpr ⟨hd, hc⟩) hoverlaps)
  case noStorage =>
    have htouches : c.touches s.nonStorage = true := by
      simpa [Command.touches_iff, Command.uses_iff, Command.dataBuffer, Command.codeBuffer, blocks] using hregion
    exact exec_of_refused hcmd hidle (State.accept_of_touches hlen hwraps hoverlaps htouches)

/-! ### Host accesses -/

section
variable (s : State) (a : Nat) (rest : List HostInput)

theorem step_write (v : Byte) :
    step { s with inputs := .write a v :: rest } = State.hostWrite { s with inputs := rest } a v := rfl

theorem step_read : step { s with inputs := .read a :: rest } = State.hostRead { s with inputs := rest } a := rfl

end

section
variable {s : State} {a : Nat}

theorem State.noStorageAt_iff : s.noStorageAt a = true ↔ ∃ r ∈ s.nonStorage, r.contains a = true := by
  simp only [State.noStorageAt, List.any_eq_true]

theorem State.noStorageAt_eq_false : s.noStorageAt a = false ↔ ∀ r ∈ s.nonStorage, r.contains a = false := by
  simp only [State.noStorageAt, List.any_eq_false, Bool.not_eq_true]

theorem State.ownedForWrite_eq_false :
    s.ownedForWrite a = false ↔ ∀ f ∈ s.eng :: s.others, f.busy = true → f.cmd.uses a = false := by
  simp only [State.ownedForWrite, List.any_eq_false, Bool.and_eq_true, not_and, Bool.not_eq_true]

theorem State.ownedForRead_eq_false :
    s.ownedForRead a = false ↔ ∀ f ∈ s.eng :: s.others, f.busy = true → f.cmd.written.contains a = false := by
  simp only [State.ownedForRead, List.any_eq_false, Bool.and_eq_true, not_and, Bool.not_eq_true]

/-- What no running command uses, none may write (R60). -/
theorem State.ownedForRead_of_ownedForWrite (h : s.ownedForWrite a = false) : s.ownedForRead a = false := by
  refine State.ownedForRead_eq_false.mpr fun f hf hbusy => ?_
  have hunused := State.ownedForWrite_eq_false.mp h f hf hbusy
  rw [← Bool.not_eq_true] at hunused ⊢
  exact mt Command.uses_of_written hunused

theorem State.hostWrite_of_outside (ha : 2 ^ s.params.aw ≤ a) (v : Byte) :
    s.hostWrite a v = .fault (.addressOutside a) := by
  simp [State.hostWrite, ha]

theorem State.hostRead_of_outside (ha : 2 ^ s.params.aw ≤ a) : s.hostRead a = .fault (.addressOutside a) := by
  simp [State.hostRead, ha]

section
variable (ha : a < 2 ^ s.params.aw)
include ha

theorem State.hostWrite_of_noStorage (h : s.noStorageAt a = true) (v : Byte) :
    s.hostWrite a v = .refused .noStorage := by
  simp [State.hostWrite, ha, h]

theorem State.hostRead_of_noStorage (h : s.noStorageAt a = true) : s.hostRead a = .refused .noStorage := by
  simp [State.hostRead, ha, h]

theorem State.hostWrite_of_free (hstorage : s.noStorageAt a = false) (h : s.ownedForWrite a = false) (v : Byte) :
    s.hostWrite a v = .next { s with mem := Memory.write s.mem a v } := by
  simp [State.hostWrite, ha, hstorage, h]

theorem State.hostRead_of_free (hstorage : s.noStorageAt a = false) (h : s.ownedForRead a = false) :
    s.hostRead a = .next { s with hostData := Memory.read s.mem a } := by
  simp [State.hostRead, ha, hstorage, h]

end

end

/-- Settles O55: a step with a host access is that access, which tests the address and then the storage. -/
theorem hostAccessNeedsStorage : Obligations.HostAccessNeedsStorage := by
  intro s a v rest
  rw [step_write, step_read]
  refine ⟨fun ha hregion => ?noStorage, fun ha => ?outside⟩
  case noStorage =>
    have hstorage : s.noStorageAt a = true := by simpa [State.noStorageAt_iff] using hregion
    exact ⟨State.hostWrite_of_noStorage (s := { s with inputs := rest }) ha hstorage v,
      State.hostRead_of_noStorage (s := { s with inputs := rest }) ha hstorage⟩
  case outside =>
    exact ⟨State.hostWrite_of_outside (s := { s with inputs := rest }) ha v,
      State.hostRead_of_outside (s := { s with inputs := rest }) ha⟩

/-- A run of the machine goes on from the next state of its first step. -/
theorem run_succ_of_next {s t : State} (h : step s = .next t) (k : Nat) :
    Host.Core.run core (k + 1) s = Host.Core.run core k t := by
  have hcore : core.step s = .next t := h
  simp only [Host.Core.run, hcore]

/-- Settles O46: both accesses are made, and the read shows what the write left. -/
theorem hostReadsBackItsWrite : Obligations.HostReadsBackItsWrite := by
  intro s a v ha hregions hfree
  have hstorage := State.noStorageAt_eq_false.mpr hregions
  have hwrite := State.ownedForWrite_eq_false.mpr hfree
  have hread := State.ownedForRead_of_ownedForWrite hwrite
  have hfirst := (step_write s a [.read a] v).trans
    (State.hostWrite_of_free (s := { s with inputs := [.read a] }) ha hstorage hwrite v)
  have hsecond := (step_read { s with mem := Memory.write s.mem a v } a []).trans
    (State.hostRead_of_free (s := { s with mem := Memory.write s.mem a v, inputs := [] }) ha hstorage hread)
  exact ⟨_, (run_succ_of_next hfirst 1).trans (run_succ_of_next hsecond 0), Memory.read_write_same _ _ _,
    Memory.read_write _ _ _, rfl, rfl⟩

/-! ### What a slice reads -/

theorem codeAt_congr {m m' : List Host.Cell} {a : Nat}
    (h : ∀ k < 3, Memory.read m (a + k) = Memory.read m' (a + k)) : codeAt m a = codeAt m' a := by
  have h0 := h 0 (by decide)
  rw [Nat.add_zero] at h0
  rw [codeAt, codeAt, h0, h 1 (by decide), h 2 (by decide)]

section
variable {e : Engine} {m m' : List Host.Cell} (h : ∀ a ∈ e.sliceReads m, Memory.read m a = Memory.read m' a)
include h

/-- Every slice reads the 256 bytes of its block. -/
theorem Engine.blockAt_eq_of_sliceReads : ∀ i < 256, blockAt m e.dp i = blockAt m' e.dp i := by
  intro i hi
  refine h _ ?_
  cases hop : e.cmd.op <;> simp [Engine.sliceReads, hop, hi]

/-- A slice of VERIFY reads the three code bytes. -/
theorem Engine.codeAt_eq_of_sliceReads (hop : e.cmd.op = .verify) : codeAt m e.cp = codeAt m' e.cp := by
  refine codeAt_congr fun k hk => h _ ?_
  have hcode : e.cp + k ∈ [e.cp, e.cp + 1, e.cp + 2] := by
    simp only [List.mem_cons]
    omega
  simp only [Engine.sliceReads, hop, List.mem_append, hcode, or_true, true_or]

end

/-- Settles O41: a slice is a function of its block and, for a VERIFY, of its stored code, which are what it reads. -/
theorem sliceDependsOnItsReads : Obligations.SliceDependsOnItsReads := by
  intro e m m'
  refine ⟨fun hreads => ?reads, fun hop => Engine.sliceWrites_compute hop m, fun hop => ?verify⟩
  case reads =>
    have hblock := Engine.blockAt_eq_of_sliceReads hreads
    cases hop : e.cmd.op
    · rw [Engine.sliceWork_compute hop, Engine.sliceWork_compute hop, Engine.sliceWrites_compute hop,
        Engine.sliceWrites_compute hop, Engine.sliceClass_compute hop, Engine.sliceClass_compute hop,
        codeOf_congr hblock]
      exact ⟨Work.compute256_congr hblock _, rfl, rfl⟩
    · rw [Engine.sliceWork_verify hop, Engine.sliceWork_verify hop, Engine.sliceWrites_verify hop,
        Engine.sliceWrites_verify hop, Engine.sliceClass_verify hop, Engine.sliceClass_verify hop,
        Engine.codeAt_eq_of_sliceReads hreads hop, codeOf_congr hblock]
      exact ⟨Work.verify256_congr hblock _ _, correction_congr hblock _ _, rfl⟩
  case verify =>
    intro sy a
    rw [Engine.sliceClass_verify hop, Engine.sliceWrites_verify hop]
    exact ⟨fun hclass => if_pos hclass, fun hclass => if_neg hclass⟩

/-! ### Commands that run at once -/

theorem Engine.compatible_comm {e f : Engine} (h : e.compatible f) : f.compatible e := fun hf he => by
  rw [Command.conflicts_comm]
  exact h he hf

section
variable {s t : State}

/-- A new engine may stand where an old one did if it is out of conflict with the others. -/
theorem State.Exclusive.withEng (h : s.Exclusive) {e : Engine} (he : ∀ f ∈ s.others, e.compatible f) :
    State.Exclusive { s with eng := e } :=
  List.pairwise_cons.mpr ⟨he, (List.pairwise_cons.mp h).2⟩

/-- No new conflict: the others stay, and the engine that moved runs nothing, or what it ran before. -/
theorem State.Exclusive.of_sameCommand (h : s.Exclusive) (hothers : t.others = s.others)
    (heng : t.eng.busy = true → s.eng.busy = true ∧ t.eng.cmd = s.eng.cmd) : t.Exclusive := by
  rw [State.Exclusive, hothers]
  refine h.withEng fun f hf ht hfbusy => ?_
  obtain ⟨hs, hcmd⟩ := heng ht
  rw [hcmd]
  exact (List.pairwise_cons.mp h).1 f hf hs hfbusy

/-- No new conflict: the engine that moved runs nothing. -/
theorem State.Exclusive.of_not_busy (h : s.Exclusive) (hothers : t.others = s.others) (ht : t.eng.busy = false) :
    t.Exclusive :=
  h.of_sameCommand hothers fun hbusy => by simp [ht] at hbusy

theorem State.Exclusive.slice (h : s.Exclusive) : s.slice.Exclusive :=
  h.of_sameCommand s.slice_others fun hbusy => by
    rw [State.slice_busy, Bool.and_eq_true] at hbusy
    exact ⟨hbusy.1, s.slice_cmd⟩

/-- A command that conflicts with a running one of another engine is not accepted (R72, U3). -/
theorem State.Exclusive.start (h : s.Exclusive) {c : Command} (hacc : s.Accepts c) :
    State.Exclusive { s with eng := s.eng.start c } := by
  obtain ⟨-, -, -, -, hcontended⟩ := hacc
  simp only [State.contended, List.any_eq_false, Bool.and_eq_true, not_and, Bool.not_eq_true] at hcontended
  exact h.withEng fun f hf _ hbusy => hcontended f hf hbusy

theorem State.Exclusive.accept (h : s.Exclusive) {c : Command} (ht : s.accept c = .next t) : t.Exclusive := by
  rcases State.accept_next ht with ⟨-, rfl⟩ | ⟨hacc, rfl⟩
  · exact h.of_not_busy rfl rfl
  · exact h.start hacc

theorem State.Exclusive.exec (h : s.Exclusive) {i : Instr} (ht : exec i s = .next t) : t.Exclusive := by
  rcases exec_next ht with ⟨c, hcmd, -⟩ | ⟨v, -, rfl⟩
  · rcases exec_command_next hcmd ht with ⟨-, rfl⟩ | ⟨-, -, rfl⟩ | ⟨-, -, rfl⟩
    · exact h.of_sameCommand rfl fun hbusy => ⟨hbusy, rfl⟩
    · exact h.of_not_busy rfl rfl
    · exact h.of_not_busy rfl rfl
  · exact h

theorem State.Exclusive.engineStep (h : s.Exclusive) (ht : s.engineStep = .next t) : t.Exclusive := by
  rcases State.engineStep_next ht with ⟨-, -, rfl⟩ | ⟨-, -, rfl⟩ | ⟨-, -, rfl⟩ | ⟨c, cs, hidle, -, hacc⟩
  · exact h.slice
  · exact h.of_not_busy rfl rfl
  · exact h
  · exact (h.of_not_busy (t := { s with eng := { s.eng with waiting := cs } }) rfl hidle).accept hacc

/-- Two engines that change places are the same engines. -/
theorem State.Exclusive.switchEngine (h : s.Exclusive) {k : Nat} (ht : s.switchEngine k = .next t) :
    t.Exclusive := by
  obtain ⟨e, he, rfl⟩ := State.switchEngine_next ht
  have hperm := List.getD_set_perm_cons s.others k s.eng
  rw [he] at hperm
  exact hperm.symm.pairwise h Engine.compatible_comm

end

/-- Settles O49, by the inversion of a step: only an acceptance lets a command run that did not run before, and it
tests for conflicts. -/
theorem stepKeepsBuffersExclusive : Obligations.StepKeepsBuffersExclusive := by
  intro s t h ht
  rcases step_next ht with ⟨-, ht⟩ | ⟨input, rest, -, hinput⟩
  · exact h.engineStep ht
  · have hs : State.Exclusive { s with inputs := rest } := h
    rcases hinput with ⟨bs, i, -, -, ht⟩ | ⟨bs, -, ht⟩ | ⟨-, ht⟩ | ⟨a, v, -, ht⟩ | ⟨a, -, ht⟩ |
      ⟨made, -, rfl⟩ | ⟨k, -, ht⟩
    · exact hs.exec ht
    · obtain ⟨c, -, rfl⟩ := State.presentCommand_next ht
      exact hs.of_sameCommand rfl fun hbusy => ⟨hbusy, rfl⟩
    · exact hs.engineStep ht
    · obtain ⟨-, -, -, rfl⟩ := State.hostWrite_next ht
      exact hs
    · obtain ⟨-, -, -, rfl⟩ := State.hostRead_next ht
      exact hs
    · exact hs.of_not_busy rfl rfl
    · exact hs.switchEngine ht

end Sys2Proof.Machine
end

section
/-! PROOFS. The array form of the two operations (20_memory.md R52): the bytes of a buffer as a list, `compute` and
`verify` on the lists of a memory, and their agreement with the scan. -/

namespace Sys2Proof.Machine

/-! ### A buffer as a list of bytes -/

section
variable (m : List Host.Cell) (a n k : Nat)

@[simp] theorem length_bytesAt : (bytesAt m a n).length = n := by simp [bytesAt]

theorem bytesAt_add : bytesAt m a (n + k) = bytesAt m a n ++ bytesAt m (a + n) k := by
  simp [bytesAt, List.range_add, Nat.add_assoc]

theorem take_bytesAt : (bytesAt m a (n + k)).take n = bytesAt m a n := by
  rw [bytesAt_add, List.take_left' (length_bytesAt m a n)]

theorem drop_bytesAt : (bytesAt m a (n + k)).drop n = bytesAt m (a + n) k := by
  rw [bytesAt_add, List.drop_left' (length_bytesAt m a n)]

/-- A write into a buffer sets one byte of the list. -/
theorem bytesAt_write (i : Nat) (v : Byte) : bytesAt (Memory.write m (a + i) v) a n = (bytesAt m a n).set i v := by
  refine List.ext_getElem (by simp) fun x _ _ => ?_
  simp [bytesAt, Memory.read_write, List.getElem_set, eq_comm (a := x)]

theorem codeOfBytes_bytesAt : codeOfBytes (bytesAt m a (3 + n)) = codeAt m a := by
  rw [bytesAt_add]
  rfl

theorem blockOf_bytesAt : ∀ i < 256, blockOf (bytesAt m a (256 + n)) i = blockAt m a i := by
  intro i hi
  have hlt : i < 256 + n := by omega
  simp [blockOf, blockAt, bytesAt, hlt]

theorem codeOf_blockOf_bytesAt : codeOf (blockOf (bytesAt m a (256 + n))) = codeOf (blockAt m a) :=
  codeOf_congr (blockOf_bytesAt m a n)

end

theorem bytesAt_congr {m m' : List Host.Cell} {a n : Nat}
    (h : ∀ i < n, Memory.read m (a + i) = Memory.read m' (a + i)) : bytesAt m a n = bytesAt m' a n :=
  List.map_congr_left fun i hi => h i (List.mem_range.mp hi)

/-! ### COMPUTE -/

/-- A code buffer that holds the code of every block is `compute` of the data buffer. -/
theorem bytesAt_eq_computeArrays {m m' : List Host.Cell} (n : Nat) :
    ∀ d c, (∀ j < n, codeAt m' (c + 3 * j) = codeOf (blockAt m (d + 256 * j))) →
      bytesAt m' c (3 * n) = computeArrays n (bytesAt m d (256 * n)) := by
  induction n with
  | zero => exact fun _ _ _ => rfl
  | succ n ih =>
    intro d c h
    have hfirst : bytesAt m' c 3 = (codeOf (blockAt m d)).bytes := congrArg Code.bytes (h 0 (Nat.succ_pos n))
    have hrest := ih (d + 256) (c + 3) fun j hj => by
      rw [show c + 3 + 3 * j = c + 3 * (j + 1) by omega, show d + 256 + 256 * j = d + 256 * (j + 1) by omega]
      exact h (j + 1) (Nat.succ_lt_succ hj)
    rw [Nat.mul_succ, Nat.mul_succ, Nat.add_comm _ 3, Nat.add_comm _ 256, bytesAt_add, computeArrays,
      codeOf_blockOf_bytesAt, drop_bytesAt, hfirst, hrest]

/-- The first `k` slices of a COMPUTE leave the code of each of their blocks (R152). -/
theorem codeAt_slicesWrites_compute {c : Command} (hop : c.op = .compute) (m : List Host.Cell) (k : Nat) :
    ∀ j < k, codeAt (Memory.writeAll m (slicesWrites m c k)) (c.cbase + 3 * j) =
      codeOf (blockAt m (c.dbase + 256 * j)) := by
  induction k with
  | zero => exact fun j hj => absurd hj (Nat.not_lt_zero j)
  | succ k ih =>
    intro j hj
    rw [slicesWrites_succ, Memory.writeAll_append]
    simp only [sliceWritesAt, hop]
    rcases Nat.lt_succ_iff_lt_or_eq.mp hj with hlt | rfl
    · rw [← ih j hlt]
      refine codeAt_congr fun x hx => Memory.read_writeAll_of_unwritten (fun w hw => ?_) _
      simp only [List.mem_cons, List.not_mem_nil, or_false] at hw
      rcases hw with rfl | rfl | rfl <;> dsimp only <;> omega
    · simp [codeAt, Memory.read_write]

section
variable {s : State} {c : Command}

theorem State.codeAt_afterCommand_compute (hop : c.op = .compute) :
    ∀ j < blocks c.len, codeAt (s.afterCommand c).mem (c.cbase + 3 * j) =
      codeOf (blockAt s.mem (c.dbase + 256 * j)) := by
  rw [← slicesDone_compute hop s.mem]
  exact codeAt_slicesWrites_compute hop s.mem _

/-- COMPUTE changes its code buffer only (R60). -/
theorem State.read_afterCommand_compute_of_outside (hop : c.op = .compute) {a : Nat}
    (ha : ¬(c.cbase ≤ a ∧ a < c.cbase + 3 * blocks c.len)) :
    Memory.read (s.afterCommand c).mem a = Memory.read s.mem a := by
  refine Memory.read_writeAll_of_unwritten (fun w hw hwa => ha ?_) s.mem
  have hdone := slicesDone_compute hop s.mem
  rcases mem_slicesWrites hw with ⟨-, hlo, hhi⟩ | ⟨hverify, -⟩
  · omega
  · rw [hop] at hverify
    cases hverify

/-- After a COMPUTE the code buffer holds `compute` of the data buffer (R52). -/
theorem State.bytesAt_codeBuffer_compute (hop : c.op = .compute) (hlen : c.len = 256 * blocks c.len) :
    bytesAt (s.afterCommand c).mem c.cbase (3 * blocks c.len) =
      computeArrays (blocks c.len) (bytesAt s.mem c.dbase c.len) := by
  have hcodes := bytesAt_eq_computeArrays _ _ _ (State.codeAt_afterCommand_compute (s := s) hop)
  rwa [← hlen] at hcodes

end

/-! ### VERIFY -/

/-- VERIFY256 on an array is the correction of the block in memory. -/
theorem verify256Array_bytesAt (m : List Host.Cell) (a n : Nat) (sc : Code) :
    verify256Array (bytesAt m a (256 + n)) sc =
      (classify ((codeOf (blockAt m a)).xor sc),
        bytesAt (Memory.writeAll m (correction (blockAt m a) a ((codeOf (blockAt m a)).xor sc))) a 256) := by
  simp only [verify256Array, codeOf_blockOf_bytesAt, take_bytesAt]
  rw [blockOf_bytesAt m a n _ (byteOffset _).isLt]
  cases hclass : classify ((codeOf (blockAt m a)).xor sc)
  case singleBitCorrected => simp [correction, hclass, bytesAt_write]
  all_goals simp [correction, hclass]

section
variable {data code d : List Byte} {cls : Classification}
  (h : verify256Array data (codeOfBytes code) = (cls, d)) (n : Nat) (corr : Bool)
include h

/-- A block without a hard failure: the next block. -/
theorem verifyArrays_succ_of_soft (hsoft : cls.hard = false) :
    verifyArrays (n + 1) corr data code =
      ((verifyArrays n (corrAfter cls corr) (data.drop 256) (code.drop 3)).1,
        d ++ (verifyArrays n (corrAfter cls corr) (data.drop 256) (code.drop 3)).2) := by
  cases cls
  case noError =>
    have hcorr : corrAfter .noError corr = corr := rfl
    simp [verifyArrays, h, hcorr]
  case singleBitCorrected => simp [verifyArrays, h, corrAfter]
  all_goals cases hsoft

/-- A block with a hard failure: the blocks after it stay (R184). -/
theorem verifyArrays_succ_of_hard (hhard : cls.hard = true) :
    verifyArrays (n + 1) corr data code = (cls, d ++ data.drop 256) := by
  cases cls
  case eccCorrupted => simp [verifyArrays, h]
  case multipleBitsUncorrectable => simp [verifyArrays, h]
  all_goals cases hhard

end

section
variable {s : State} {c : Command}

/-- VERIFY leaves what lies at and after the first slice with a hard failure (R184, R186). -/
theorem verifiedByte_of_passed {m : List Host.Cell} {a : Nat} (ha : c.dbase + 256 * slicesPassed m c ≤ a) :
    verifiedByte m c a = Memory.read m a :=
  if_neg fun ⟨_, hj, _, _⟩ => by omega

variable (hop : c.op = .verify)
include hop

/-- The blocks before the first hard failure, after a VERIFY: each has its own correction. -/
theorem State.bytesAt_afterCommand_verify {j : Nat} (hj : j < slicesDone s.mem c) :
    bytesAt (s.afterCommand c).mem (c.dbase + 256 * j) 256 =
      bytesAt (Memory.writeAll s.mem (sliceWritesAt s.mem c j)) (c.dbase + 256 * j) 256 := by
  refine bytesAt_congr fun b hb => ?_
  rw [slicesDone_verify hop] at hj
  rw [State.read_afterCommand_verify hop, verifiedByte_block _ _ _ hb, sliceWritesAt_verify hop,
    read_writeAll_correction]
  refine ite_congr ?_ (fun hcorrected => ?_) fun _ => rfl
  · simp [hj, classAt]
  · rw [hcorrected.2]
    rfl

/-- The array form of slice `j` of a VERIFY, on buffers of `k` more blocks. -/
theorem verify256Array_slice (m : List Host.Cell) (j k : Nat) :
    verify256Array (bytesAt m (c.dbase + 256 * j) (256 + k)) (codeAt m (c.cbase + 3 * j)) =
      (sliceClassAt m c j, bytesAt (Memory.writeAll m (sliceWritesAt m c j)) (c.dbase + 256 * j) 256) := by
  rw [verify256Array_bytesAt, sliceClassAt_verify hop, sliceWritesAt_verify hop]
  rfl

/-- `verify` on the blocks from slice `j` on gives what the command ends with. -/
theorem State.verifyArrays_afterCommand (k : Nat) :
    ∀ j, j + k = blocks c.len → j ≤ slicesDone s.mem c →
      verifyArrays k (slicesCorr s.mem c s.eng.corr j) (bytesAt s.mem (c.dbase + 256 * j) (256 * k))
          (bytesAt s.mem (c.cbase + 3 * j) (3 * k)) =
        ((s.afterCommand c).eng.cls, bytesAt (s.afterCommand c).mem (c.dbase + 256 * j) (256 * k)) := by
  induction k with
  | zero =>
    intro j hj hle
    have hmost := slicesDone_le (m := s.mem) (c := c)
    have hdone : slicesDone s.mem c = j := by omega
    have hlast : ¬j < blocks c.len := by omega
    simp only [State.afterCommand, hdone, hlast, if_false, finalClass, hop]
    rfl
  | succ k ih =>
    intro j hj hle
    have hslice := verify256Array_slice hop s.mem j (256 * k)
    rw [← codeOfBytes_bytesAt _ _ (3 * k)] at hslice
    have hdata : c.dbase + 256 * j + 256 = c.dbase + 256 * (j + 1) := by omega
    have hcode : c.cbase + 3 * j + 3 = c.cbase + 3 * (j + 1) := by omega
    rw [Nat.mul_succ, Nat.mul_succ, Nat.add_comm _ 256, Nat.add_comm _ 3]
    rcases Nat.lt_or_eq_of_le hle with hlt | rfl
    · rw [verifyArrays_succ_of_soft hslice k _ (soft_of_lt_slicesDone hlt), drop_bytesAt, drop_bytesAt, hdata, hcode,
        ← slicesCorr_succ, ih (j + 1) (by omega) hlt, ← State.bytesAt_afterCommand_verify hop hlt, bytesAt_add,
        hdata]
    · have hk : slicesDone s.mem c < blocks c.len := by omega
      have hhard := hard_at_slicesDone hk
      rw [verifyArrays_succ_of_hard hslice k _ hhard, drop_bytesAt, sliceWritesAt_of_hard hhard, Memory.writeAll_nil,
        ← bytesAt_add]
      refine Prod.ext ?_ (bytesAt_congr fun i _ => ?_)
      · simp only [State.afterCommand, if_pos hk]
      · rw [State.read_afterCommand_verify hop, verifiedByte_of_passed]
        rw [← slicesDone_verify hop]
        omega

/-- A VERIFY ends with the response and the data buffer of `verify` on its buffers (R52). -/
theorem State.verifyArrays_buffers (hlen : c.len = 256 * blocks c.len) :
    ((s.afterCommand c).eng.cls, bytesAt (s.afterCommand c).mem c.dbase c.len) =
      verifyArrays (blocks c.len) false (bytesAt s.mem c.dbase c.len)
        (bytesAt s.mem c.cbase (3 * blocks c.len)) := by
  have hcorr : slicesCorr s.mem c s.eng.corr 0 = false := slicesCorr_verify hop _ _
  have harrays := State.verifyArrays_afterCommand (s := s) hop _ 0 (Nat.zero_add _) (Nat.zero_le _)
  rw [hcorr, Nat.add_zero, Nat.add_zero, ← hlen] at harrays
  exact harrays.symm

end

/-- Settles O40: the code of every block makes up `compute`, and `verify` block by block follows the scan; neither
command writes the other buffer, since the two have no byte in common. -/
theorem arrayFormAgrees : Obligations.ArrayFormAgrees := by
  intro len d c s hidle
  refine ⟨fun hacc => ?compute, fun hacc => ?verify⟩
  all_goals
    obtain ⟨hlen, -, -, -, hdisjoint⟩ := hacc.buffers
    dsimp only at hlen hdisjoint
  case compute =>
    refine ⟨_, exec_of_accepts rfl hidle hacc, State.bytesAt_codeBuffer_compute rfl hlen,
      bytesAt_congr fun i hi => State.read_afterCommand_compute_of_outside rfl ?_⟩
    dsimp only
    omega
  case verify =>
    refine ⟨_, exec_of_accepts rfl hidle hacc, State.verifyArrays_buffers rfl hlen, bytesAt_congr fun i hi => ?_⟩
    have hi : i < 3 * blocks len := hi
    rw [State.read_afterCommand_verify rfl]
    exact verifiedByte_of_outside hlen (by dsimp only; omega)

end Sys2Proof.Machine
end

section
/-! PROOFS. The encodings (30_encoding.md): the layout of the code and the lattice it is made of, the error address, the
table's command words, the legal responses, and the one-block commands. -/

namespace Sys2Proof.Machine

/-! ### XORs of bits -/

theorem xorAll_range_succ (f : Nat → Bool) (n : Nat) :
    xorAll ((List.range (n + 1)).map f) = xor (xorAll ((List.range n).map f)) (f n) := by
  simp [xorAll, List.range_succ]

theorem xorAll_range_congr {f g : Nat → Bool} {n : Nat} (h : ∀ i < n, f i = g i) :
    xorAll ((List.range n).map f) = xorAll ((List.range n).map g) :=
  congrArg xorAll (List.map_congr_left fun i hi => h i (List.mem_range.mp hi))

theorem xorAll_range_xor (f g : Nat → Bool) (n : Nat) :
    xorAll ((List.range n).map fun i => xor (f i) (g i)) =
      xor (xorAll ((List.range n).map f)) (xorAll ((List.range n).map g)) := by
  induction n with
  | zero => rfl
  | succ n ih =>
    simp only [xorAll_range_succ, ih, Bool.xor_assoc, Bool.xor_left_comm]

theorem xorAll_range_and (b : Bool) (f : Nat → Bool) (n : Nat) :
    xorAll ((List.range n).map fun i => b && f i) = (b && xorAll ((List.range n).map f)) := by
  induction n with
  | zero => exact (Bool.and_false b).symm
  | succ n ih => rw [xorAll_range_succ, xorAll_range_succ, ih, Bool.and_xor_distrib_left]

theorem xorAll_range_false (n : Nat) : xorAll ((List.range n).map fun _ => false) = false :=
  xorAll_range_and false (fun _ => false) n

/-- The order of two XORs does not matter. -/
theorem xorAll_range_swap (f : Nat → Nat → Bool) (n m : Nat) :
    xorAll ((List.range n).map fun i => xorAll ((List.range m).map (f i))) =
      xorAll ((List.range m).map fun k => xorAll ((List.range n).map fun i => f i k)) := by
  induction n with
  | zero => exact (xorAll_range_false m).symm
  | succ n ih => simp only [xorAll_range_succ, ih, xorAll_range_xor]

/-- One bit of an XOR of bytes. -/
theorem getLsbD_xorFold (f : Nat → Byte) (n j : Nat) :
    (xorFold f n).getLsbD j = xorAll ((List.range n).map fun i => (f i).getLsbD j) := by
  induction n with
  | zero => exact BitVec.getLsbD_zero
  | succ n ih => rw [xorFold_succ, BitVec.getLsbD_xor, ih, xorAll_range_succ]

/-- PARITY8 is the XOR of the eight bits (R111). -/
theorem parity8_eq_xorAll (v : Byte) : parity8 v = xorAll ((List.range 8).map v.getLsbD) := by
  have hbits : ∀ b0 b1 b2 b3 b4 b5 b6 b7 : Bool,
      ((b0.toNat + b1.toNat + b2.toNat + b3.toNat + b4.toNat + b5.toNat + b6.toNat + b7.toNat) % 2 == 1) =
        xorAll [b0, b1, b2, b3, b4, b5, b6, b7] := by decide
  exact hbits ..

/-! ### The lattice by lines and by columns -/

/-- An XOR over whole lines is one of their parities. -/
theorem xorWhere_lines (D : Nat → Byte) (p : Nat → Bool) :
    xorWhere D (fun i _ => p i) = xorAll ((List.range 256).map fun i => p i && parity8 (D i)) := by
  simp only [xorWhere, xorAll_range_and, parity8_eq_xorAll]

/-- An XOR over whole columns is one of the bits of the column sum. -/
theorem xorWhere_columns (D : Nat → Byte) (p : Nat → Bool) :
    xorWhere D (fun _ k => p k) = xorAll ((List.range 8).map fun k => p k && (columnSum D).getLsbD k) := by
  simp only [xorWhere, columnSum, getLsbD_xorFold, ← xorAll_range_and]
  exact xorAll_range_swap (fun i k => p k && (D i).getLsbD k) 256 8

theorem testBit_two_pow_sub_one_sub {n i j : Nat} (hi : i < 2 ^ n) (hj : j < n) :
    (2 ^ n - 1 - i).testBit j = !i.testBit j := by
  rw [Nat.sub_sub, Nat.add_comm, Nat.testBit_two_pow_sub_succ hi]
  simp [hj]

/-- A bit of a byte that is held back unless `b` holds. -/
theorem getLsbD_ofNat_if (b : Bool) (v j : Nat) (hj : j < 8) :
    (if b then BitVec.ofNat 8 v else 0#8).getLsbD j = (v.testBit j && b) := by
  cases b
  · simp
  · rw [if_pos rfl, BitVec.getLsbD_ofNat, decide_eq_true hj, Bool.true_and, Bool.and_true]

section
variable (D : Nat → Byte) {j : Nat}

/-- `LE` holds the even line parities (R127, R131). -/
theorem getLsbD_linesEven (hj : j < 8) : (linesEven D).getLsbD j = latticeLP D j := by
  rw [linesEven, getLsbD_xorFold, latticeLP, xorWhere_lines]
  refine xorAll_range_congr fun i hi => ?_
  rw [lineEven, getLsbD_ofNat_if _ _ _ hj]
  exact congrArg (· && parity8 (D i)) (testBit_two_pow_sub_one_sub (n := 8) hi hj)

/-- `LO` holds the odd line parities (R128, R131). -/
theorem getLsbD_linesOdd (hj : j < 8) : (linesOdd D).getLsbD j = latticeLP' D j := by
  rw [linesOdd, getLsbD_xorFold, latticeLP', xorWhere_lines]
  exact xorAll_range_congr fun i _ => getLsbD_ofNat_if _ _ _ hj

/-- `CE` holds the even column parities (R129, R131). -/
theorem getLsbD_columnsEven (hj : j < 3) : (columnsEven (columnSum D)).getLsbD j = latticeCP D j := by
  rw [columnsEven, getLsbD_xorFold, latticeCP, xorWhere_columns]
  refine xorAll_range_congr fun k hk => ?_
  rw [columnEven, getLsbD_ofNat_if _ _ _ (by omega)]
  exact congrArg (· && (columnSum D).getLsbD k) (testBit_two_pow_sub_one_sub (n := 3) hk hj)

/-- `CO` holds the odd column parities (R130, R131). -/
theorem getLsbD_columnsOdd (hj : j < 3) : (columnsOdd (columnSum D)).getLsbD j = latticeCP' D j := by
  rw [columnsOdd, getLsbD_xorFold, latticeCP', xorWhere_columns]
  exact xorAll_range_congr fun k _ => getLsbD_ofNat_if _ _ _ (by omega)

/-- The bytes of `PRE` from the lattice (R87, R131). -/
theorem preOf_eq_lattice :
    preOf D =
      { b0 := byteOfBits (latticeLP' D 7) (latticeLP D 7) (latticeLP' D 6) (latticeLP D 6)
          (latticeLP' D 5) (latticeLP D 5) (latticeLP' D 4) (latticeLP D 4)
        b1 := byteOfBits (latticeLP' D 3) (latticeLP D 3) (latticeLP' D 2) (latticeLP D 2)
          (latticeLP' D 1) (latticeLP D 1) (latticeLP' D 0) (latticeLP D 0)
        b2 := byteOfBits (latticeCP' D 2) (latticeCP D 2) (latticeCP' D 1) (latticeCP D 1)
          (latticeCP' D 0) (latticeCP D 0) false false } := by
  simp only [preOf_eq, Work.pre, ← BitVec.getLsbD_eq_getElem, getLsbD_linesEven, getLsbD_linesOdd,
    getLsbD_columnsEven, getLsbD_columnsOdd, Nat.reduceLT]

end

/-- Settles O8: the code is the inverted `PRE`, whose bits are those of the lattice. -/
theorem codeLayout : Obligations.CodeLayout := by
  intro D
  rw [codeOf_eq, preOf_eq_lattice]
  refine ⟨fun t ht => ?_, fun t ht => ?_, ?_, ?_⟩
  · interval_cases t <;> simp [Code.invert, BitVec.getLsbD_eq_getElem]
  · interval_cases t <;> simp [Code.invert, BitVec.getLsbD_eq_getElem]
  · simp [Code.invert]
  · simp [Code.invert]

/-! ### The error address -/

/-- `BITOFF` as the low bits of a byte. -/
theorem bitOffset_toNat (sy : Code) :
    (bitOffset sy).toNat = (byteOfBits false false false false false sy.b2[7] sy.b2[5] sy.b2[3]).toNat := by
  have hbits : ∀ b2 b1 b0 : Bool, (BitVec.ofNat 3 (4 * b2.toNat + 2 * b1.toNat + b0.toNat)).toNat =
      (byteOfBits false false false false false b2 b1 b0).toNat := by decide
  exact hbits ..

/-- Settles O14: both sides have the same bit at each place. -/
theorem errorAddressByShiftAndMask : Obligations.ErrorAddressByShiftAndMask := by
  intro sy
  rw [bitOffset_toNat]
  refine ⟨?_, congrArg BitVec.toNat ?_⟩
  · apply byte_ext <;> simp [byteOffset]
  · apply byte_ext <;> simp

/-! ### The legal responses -/

/-- A bad length answers `1 00` (R97, R203). -/
theorem Engine.response_raiseLengthError (e : Engine) (c : Command) : (e.raiseLengthError c).response = 0b100#3 := by
  rw [Engine.response, Engine.raiseLengthError_err, Engine.raiseLengthError_cls]
  rfl

/-- COMPUTE answers NoError (R153). -/
theorem State.afterCommand_cls_compute {s : State} {c : Command} (hop : c.op = .compute) :
    (s.afterCommand c).eng.cls = .noError := by
  simp only [State.afterCommand, sliceClassAt_compute hop, finalClass, hop, ite_self]

/-- Settles O33: a bad length answers `1 00`; a command that runs answers without error, and a COMPUTE with NoError. -/
theorem legalResponses : Obligations.LegalResponses := by
  intro i c s t hcmd hidle ht
  rcases exec_command_next hcmd ht with ⟨hbusy, -⟩ | ⟨-, -, rfl⟩ | ⟨-, -, rfl⟩
  · rw [hidle] at hbusy
    cases hbusy
  · have hresponse := Engine.response_raiseLengthError s.eng c
    exact ⟨fun _ => .inr hresponse, fun _ => .inr (.inr (.inr (.inr hresponse)))⟩
  · have herr : (s.afterCommand c).eng.err = false := rfl
    refine ⟨fun hop => .inl ?_, fun _ => ?_⟩
    · rw [Engine.response, herr, State.afterCommand_cls_compute hop]
      rfl
    · rw [Engine.response, herr]
      cases (s.afterCommand c).eng.cls <;> decide

/-! ### The one-block commands -/

/-- A slice with a hard failure writes nothing, so the writes of a command are those of the slices that it examined. -/
theorem State.afterCommand_mem {s : State} {c : Command} (hpos : 1 ≤ blocks c.len) :
    (s.afterCommand c).mem =
      Memory.writeAll s.mem (slicesWrites s.mem c (min (slicesDone s.mem c) (blocks c.len - 1) + 1)) := by
  change Memory.writeAll s.mem (slicesWrites s.mem c (slicesDone s.mem c)) = _
  have hle := slicesDone_le (m := s.mem) (c := c)
  rcases Nat.lt_or_eq_of_le hle with hlt | heq
  · rw [show min (slicesDone s.mem c) (blocks c.len - 1) = slicesDone s.mem c by omega, slicesWrites_succ,
      sliceWritesAt_of_hard (hard_at_slicesDone hlt), List.append_nil]
  · rw [show min (slicesDone s.mem c) (blocks c.len - 1) + 1 = slicesDone s.mem c by omega]

/-- The aggregate of one slice is its classification (R185). -/
theorem finalClass_verify_of_soft {cls : Classification} (h : cls.hard = false) :
    finalClass .verify (cls == .singleBitCorrected) = cls := by
  cases cls
  case noError | singleBitCorrected => rfl
  case eccCorrupted | multipleBitsUncorrectable => cases h

section
variable {s : State} {c : Command} (hone : blocks c.len = 1)
include hone

/-- The registers are those of the only slice (R105). -/
theorem State.afterCommand_work_of_one :
    (s.afterCommand c).eng.work = sliceWorkAt s.mem c s.eng.work 0 := by
  simp [State.afterCommand, hone, slicesWork]

/-- The writes are those of the only slice (R105). -/
theorem State.afterCommand_mem_of_one :
    (s.afterCommand c).mem = Memory.writeAll s.mem (sliceWritesAt s.mem c 0) := by
  rw [State.afterCommand_mem hone.ge, hone, Nat.sub_self, Nat.min_zero, slicesWrites_succ]
  rfl

/-- VERIFY of one block answers the classification of that block (R105, R185). -/
theorem State.afterCommand_cls_of_one (hop : c.op = .verify) :
    (s.afterCommand c).eng.cls = classAt s.mem c 0 := by
  simp only [State.afterCommand, hone, slicesCorr_verify hop, sliceClassAt_verify hop, hop]
  split
  case isTrue hlt => rw [Nat.lt_one_iff.mp hlt]
  case isFalse hge =>
    have hdone : slicesDone s.mem c = 1 := le_antisymm (hone ▸ slicesDone_le) (Nat.not_lt.mp hge)
    have hsoft : (classAt s.mem c 0).hard = false := by
      rw [← sliceClassAt_verify hop]
      exact soft_of_lt_slicesDone (hdone ▸ Nat.one_pos)
    rw [hdone, ← finalClass_verify_of_soft hsoft]
    simp

end

/-- Settles O24: the closed form of a command of one block is that of its only slice. -/
theorem oneBlockCommandsRunThePrimitive : Obligations.OneBlockCommandsRunThePrimitive := by
  intro d c s
  have hone : blocks 256 = 1 := by decide
  refine ⟨rfl, rfl, fun hidle hacc => ?compute, fun hidle hacc => ?verify⟩
  case compute =>
    have hwork := State.afterCommand_work_of_one (s := s) (c := ⟨.compute, 256, d, c⟩) hone
    have hcode := State.codeAt_afterCommand_compute (s := s) (c := ⟨.compute, 256, d, c⟩) rfl 0 hone.ge
    refine ⟨_, exec_of_accepts rfl hidle hacc, hwork, ?_, fun a ha => ?_⟩
    · rw [hwork]
      exact hcode.trans (Work.compute256_cc _ _).symm
    · refine State.read_afterCommand_compute_of_outside rfl ?_
      simp only [hone]
      omega
  case verify =>
    have hwork := State.afterCommand_work_of_one (s := s) (c := ⟨.verify, 256, d, c⟩) hone
    have hsy : (s.afterCommand ⟨.verify, 256, d, c⟩).eng.work.sy = syndromeAt s.mem ⟨.verify, 256, d, c⟩ 0 := by
      rw [hwork]
      exact Work.verify256_sy _ _ _
    refine ⟨_, exec_of_accepts rfl hidle hacc, hwork, ?_, ?_⟩
    · rw [hsy]
      exact State.afterCommand_cls_of_one hone rfl
    · rw [hsy]
      exact State.afterCommand_mem_of_one hone

end Sys2Proof.Machine

namespace Sys2Proof

/-! ### The table's command words -/

section
variable {w : Nat}

/-- The bytes of a table's word of 13 bytes hold that word. -/
theorem ofBytesLE_tableBytes (hw : w < 2 ^ 104) : ofBytesLE (tableBytes Params.default 104 w) = w := by
  rw [tableBytes, ofBytesLE_toBytesLE, Nat.mod_eq_of_lt hw]
  exact Nat.mod_eq_of_lt hw

theorem length_tableBytes (w : Nat) : (tableBytes Params.default 104 w).length = Params.default.packedBytes :=
  toBytesLE_length _ _

/-- A table's word that fits the packed form is the command of its fields (R100). -/
theorem decodeTableWord_of_fits (hw : w < 2 ^ 97) :
    decodeTableWord 104 w = some (instrOf (unpackCommand Params.default w)) := by
  have hword := ofBytesLE_tableBytes (hw.trans (by decide))
  have hcommand : decodeCommand Params.default (tableBytes Params.default 104 w) =
      .ok (unpackCommand Params.default w) :=
    decodeCommand_eq_ok_iff.mpr ⟨length_tableBytes w, by rw [hword]; exact hw, by rw [hword]⟩
  rw [decodeTableWord, decode, hcommand]

/-- A bit above the packed form makes the table's word no command (R100). -/
theorem decodeTableWord_of_stray (hlo : 2 ^ 97 ≤ w) (hhi : w < 2 ^ 104) : decodeTableWord 104 w = none := by
  have hbits : 2 ^ Params.default.packedBits ≤ ofBytesLE (tableBytes Params.default 104 w) :=
    (ofBytesLE_tableBytes hhi).symm ▸ hlo
  simp only [decodeTableWord, decode, decodeCommand, length_tableBytes, hbits, ne_eq, not_true_eq_false, if_false,
    if_true]

end

/-- Settles O1: the first six words fit the packed form, and their fields are those written; the last has a bit above
it. -/
theorem commandWordsDecode : Obligations.CommandWordsDecode := by
  refine ⟨?_, ?_, ?_, ?_, ?_, ?_, decodeTableWord_of_stray (by decide) (by decide)⟩
  all_goals
    rw [decodeTableWord_of_fits (by decide)]
    rfl

end Sys2Proof
end

section
/-! PROOFS. The bit population counter (40_popcount.md): POPCNT8 counts the set bits, and PARITY8 turns an XOR of bytes
into an XOR of parities. -/

namespace Sys2Proof.Machine

/-! ### The population count -/

theorem length_filter_range_succ (p : Nat → Bool) (n : Nat) :
    ((List.range (n + 1)).filter p).length = ((List.range n).filter p).length + (p n).toNat := by
  rw [List.range_succ, List.filter_append, List.length_append]
  cases h : p n <;> simp [h]

/-- POPCNT8 is the number of set bits (R110). -/
theorem popcnt8_eq_length_filter (v : Byte) :
    popcnt8 v = ((List.range 8).filter fun k => v.getLsbD k).length := by
  simp only [length_filter_range_succ, List.range_zero, List.filter_nil, List.length_nil, Nat.zero_add]
  rfl

/-- POPCNT8 by itself writes the counter's output and nothing else (R110). -/
theorem exec_popcnt8 (v : Byte) (s : State) : exec (.popcnt8 v) s = .next { s with popOut := popcnt8 v } := rfl

/-! ### The parity -/

/-- PARITY8 answers whether the population count is odd (R111). -/
theorem parity8_eq_true_iff (v : Byte) : parity8 v = true ↔ popcnt8 v % 2 = 1 := beq_iff_eq

/-- PARITY8 with its eight bits written out, bit 0 first (R111). -/
theorem parity8_eq_xor_bits (v : Byte) :
    parity8 v = xor v[0] (xor v[1] (xor v[2] (xor v[3] (xor v[4] (xor v[5] (xor v[6] v[7])))))) := by
  rw [parity8_eq_xorAll]
  simp only [xorAll_range_succ, Bool.xor_assoc]
  exact Bool.false_xor _

/-- The parity of an XOR is the XOR of the parities, since each bit of an XOR is (R111). -/
theorem parity8_xor (a b : Byte) : parity8 (a ^^^ b) = xor (parity8 a) (parity8 b) := by
  have hbits : (a ^^^ b).getLsbD = fun k => xor (a.getLsbD k) (b.getLsbD k) := funext fun _ => BitVec.getLsbD_xor
  rw [parity8_eq_xorAll, hbits, xorAll_range_xor, ← parity8_eq_xorAll, ← parity8_eq_xorAll]

theorem parity8_one_shiftLeft : ∀ k < 8, parity8 (1#8 <<< k) = true := by decide

/-- Inverting a bit is an XOR with a byte of odd parity (R111). -/
theorem parity8_flipBit (a : Byte) {k : Nat} (hk : k < 8) : parity8 (flipBit a k) = !parity8 a := by
  rw [flipBit, parity8_xor, parity8_one_shiftLeft k hk, Bool.xor_true]

/-! ### The statements -/

/-- Settles O4: the count is a sum of bits, and the parity of such a sum is the XOR of its bits. -/
theorem populationCounts : Obligations.PopulationCounts :=
  ⟨popcnt8_eq_length_filter, fun v => ⟨parity8_eq_true_iff v, parity8_eq_xor_bits v⟩, fun _ => rfl⟩

/-- Settles O5: the parity turns an XOR of bytes into an XOR of bits, and one bit alone has odd parity. -/
theorem parityOfXor : Obligations.ParityOfXor :=
  ⟨parity8_xor, fun a _ hk => parity8_flipBit a hk⟩

/-- Settles O6: the only field written is the counter's output, and it is the number of set bits. -/
theorem popcnt8Completes : Obligations.Popcnt8Completes := by
  intro v s
  rw [exec_popcnt8, popcnt8_eq_length_filter]

end Sys2Proof.Machine
end


section
/-! PROOFS. COMPUTE256 (41_compute256.md): the accumulators are the lattice, the code depends on the block alone and is
linear in it, the two parities of a pair differ by the parity of the block, and one data bit spells its address. -/

namespace Sys2Proof.Machine

/-! ### The accumulators and the block -/

/-- Settles O7: each bit of an accumulator is its parity of the lattice. -/
theorem latticeEqualsAccumulators : Obligations.LatticeEqualsAccumulators := by
  intro D r
  rw [Work.accumulate_le, Work.accumulate_lo, Work.accumulate_ce, Work.accumulate_co]
  exact ⟨fun _ hj => ⟨getLsbD_linesEven D hj, getLsbD_linesOdd D hj⟩,
    fun _ hj => ⟨getLsbD_columnsEven D hj, getLsbD_columnsOdd D hj⟩⟩

/-- Settles O9: `CC` is the code of the block, which reads its 256 bytes only. -/
theorem codeDependsOnBlockOnly : Obligations.CodeDependsOnBlockOnly := by
  intro D E r q hDE
  rw [Work.compute256_cc, Work.compute256_cc, codeOf_congr hDE]
  exact ⟨rfl, rfl⟩

/-! ### Linearity -/

section
variable (A B : Nat → Byte)

/-- An XOR over the bits of a difference is the XOR of the two. -/
theorem xorWhere_xor (cond : Nat → Nat → Bool) :
    xorWhere (fun i => A i ^^^ B i) cond = xor (xorWhere A cond) (xorWhere B cond) := by
  simp only [xorWhere, BitVec.getLsbD_xor, Bool.and_xor_distrib_left, xorAll_range_xor]

/-- `PRE` is linear, since every parity of the lattice is (R135). -/
theorem preOf_xor : preOf (fun i => A i ^^^ B i) = (preOf A).xor (preOf B) := by
  simp only [preOf_eq_lattice, latticeLP, latticeLP', latticeCP, latticeCP', xorWhere_xor, Code.xor,
    ← byteOfBits_xor, Bool.xor_self]

/-- The inversion cancels in the XOR of two codes (R135). -/
theorem codeOf_xor_codeOf : (codeOf A).xor (codeOf B) = preOf (fun i => A i ^^^ B i) := by
  rw [codeOf_eq, codeOf_eq, Code.invert_xor_invert, preOf_xor]

/-- A difference in the block is its `PRE` in the code (R135). -/
theorem codeOf_xor : codeOf (fun i => A i ^^^ B i) = (codeOf A).xor (preOf B) := by
  have hcancel : preOf B = (codeOf A).xor (codeOf fun i => A i ^^^ B i) := by
    simp only [codeOf_xor_codeOf, ← BitVec.xor_assoc, BitVec.xor_self, BitVec.zero_xor]
  rw [hcancel, ← Code.xor_assoc, Code.xor_self, Code.zero_xor]

end

/-- `PRE` of the zero block is that of a block's difference from itself (R135). -/
theorem preOf_zero : preOf (fun _ => 0) = Code.zero :=
  (preOf_xor (fun _ => 0) (fun _ => 0)).trans (Code.xor_self _)

/-- Settles O10: the parities are linear, and the inversion cancels. -/
theorem codeIsLinear : Obligations.CodeIsLinear := ⟨preOf_xor, preOf_zero, codeOf_xor_codeOf⟩

/-! ### The accumulators as bytes of parities -/

theorem byteOfBits_getElem (v : Byte) : byteOfBits v[7] v[6] v[5] v[4] v[3] v[2] v[1] v[0] = v := by
  apply byte_ext <;> simp

/-- A byte below 8 is its three low bits. -/
theorem byteOfBits_low {v : Byte} (hv : v.toNat < 8) :
    byteOfBits false false false false false v[2] v[1] v[0] = v := by
  have hhigh : ∀ j (hj : j < 8), 3 ≤ j → v[j] = false := fun j _ h3 =>
    Nat.testBit_lt_two_pow (hv.trans_le (Nat.pow_le_pow_right Nat.two_pos h3))
  apply byte_ext <;> simp [hhigh]

theorem popcnt8_byteOfBits (b7 b6 b5 b4 b3 b2 b1 b0 : Bool) :
    popcnt8 (byteOfBits b7 b6 b5 b4 b3 b2 b1 b0) =
      b0.toNat + b1.toNat + b2.toNat + b3.toNat + b4.toNat + b5.toNat + b6.toNat + b7.toNat := by
  simp [popcnt8]

section
variable (D : Nat → Byte)

theorem linesEven_eq_lattice :
    linesEven D = byteOfBits (latticeLP D 7) (latticeLP D 6) (latticeLP D 5) (latticeLP D 4)
      (latticeLP D 3) (latticeLP D 2) (latticeLP D 1) (latticeLP D 0) := by
  rw [← byteOfBits_getElem (linesEven D)]
  simp only [← BitVec.getLsbD_eq_getElem, getLsbD_linesEven, Nat.reduceLT]

theorem linesOdd_eq_lattice :
    linesOdd D = byteOfBits (latticeLP' D 7) (latticeLP' D 6) (latticeLP' D 5) (latticeLP' D 4)
      (latticeLP' D 3) (latticeLP' D 2) (latticeLP' D 1) (latticeLP' D 0) := by
  rw [← byteOfBits_getElem (linesOdd D)]
  simp only [← BitVec.getLsbD_eq_getElem, getLsbD_linesOdd, Nat.reduceLT]

theorem columnsEven_eq_lattice :
    columnsEven (columnSum D) =
      byteOfBits false false false false false (latticeCP D 2) (latticeCP D 1) (latticeCP D 0) := by
  rw [← byteOfBits_low (columnsEven_lt _)]
  simp only [← BitVec.getLsbD_eq_getElem, getLsbD_columnsEven, Nat.reduceLT]

theorem columnsOdd_eq_lattice :
    columnsOdd (columnSum D) =
      byteOfBits false false false false false (latticeCP' D 2) (latticeCP' D 1) (latticeCP' D 0) := by
  rw [← byteOfBits_low (columnsOdd_lt _)]
  simp only [← BitVec.getLsbD_eq_getElem, getLsbD_columnsOdd, Nat.reduceLT]

/-! ### The pair law -/

/-- The parity of the column sum is the XOR of all data bits (R136). -/
theorem parity8_columnSum : parity8 (columnSum D) = xorWhere D (fun _ _ => true) := by
  rw [xorWhere_columns, parity8_eq_xorAll]
  simp only [Bool.true_and]

/-- The bits where a condition fails, from those where it holds and the parity of the whole block. -/
theorem xorWhere_not (cond : Nat → Nat → Bool) :
    xorWhere D (fun i k => !cond i k) = xor (parity8 (columnSum D)) (xorWhere D cond) := by
  rw [parity8_columnSum]
  simp only [xorWhere, ← xorAll_range_xor, ← Bool.and_xor_distrib_right, Bool.true_xor]

/-- The lines of a pair cover complementary halves of the block (R136). -/
theorem latticeLP_eq_xor (j : Nat) : latticeLP D j = xor (parity8 (columnSum D)) (latticeLP' D j) :=
  xorWhere_not D _

/-- The columns of a pair cover complementary halves of the block (R136). -/
theorem latticeCP_eq_xor (j : Nat) : latticeCP D j = xor (parity8 (columnSum D)) (latticeCP' D j) :=
  xorWhere_not D _

theorem linesEven_xor_linesOdd :
    linesEven D ^^^ linesOdd D = if parity8 (columnSum D) then 0xFF#8 else 0#8 := by
  rw [linesEven_eq_lattice, linesOdd_eq_lattice, ← byteOfBits_xor]
  simp only [latticeLP_eq_xor, Bool.xor_assoc, Bool.xor_self, Bool.xor_false]
  cases parity8 (columnSum D) <;> rfl

theorem columnsEven_xor_columnsOdd :
    columnsEven (columnSum D) ^^^ columnsOdd (columnSum D) = if parity8 (columnSum D) then 7#8 else 0#8 := by
  rw [columnsEven_eq_lattice, columnsOdd_eq_lattice, ← byteOfBits_xor]
  simp only [latticeCP_eq_xor, Bool.xor_assoc, Bool.xor_self, Bool.xor_false]
  cases parity8 (columnSum D) <;> rfl

/-- Four pairs whose bits differ, or are equal, as `t` is 1 or 0. -/
theorem popcnt8_four_pairs : ∀ t a b c d : Bool,
    popcnt8 (byteOfBits a (xor t a) b (xor t b) c (xor t c) d (xor t d)) =
      if t then 4 else 2 * (a.toNat + b.toNat + c.toNat + d.toNat) := by decide

/-- Three such pairs above two pad bits. -/
theorem popcnt8_three_pairs : ∀ t a b c : Bool,
    popcnt8 (byteOfBits a (xor t a) b (xor t b) c (xor t c) false false) =
      if t then 3 else 2 * (a.toNat + b.toNat + c.toNat) := by decide

/-- The weight of `PRE` (R136). -/
theorem popcnt24_preOf :
    popcnt24 (preOf D) =
      if parity8 (columnSum D) then 11
      else 2 * (popcnt8 (linesOdd D) + popcnt8 (columnsOdd (columnSum D))) := by
  rw [preOf_eq_lattice, linesOdd_eq_lattice, columnsOdd_eq_lattice, popcnt8_byteOfBits, popcnt8_byteOfBits]
  simp only [popcnt24, latticeLP_eq_xor, latticeCP_eq_xor, popcnt8_four_pairs, popcnt8_three_pairs]
  cases parity8 (columnSum D)
  case true => rfl
  case false =>
    simp only [Bool.false_eq_true, if_false, Bool.toNat_false]
    omega

end

/-- Settles O11: the two parities of a pair differ by the parity of the block, in the accumulators and in the code. -/
theorem pairLaw : Obligations.PairLaw := by
  intro D r
  have hpair : ∀ {e o : Bool}, e = xor (parity8 (columnSum D)) o → xor (!o) (!e) = parity8 (columnSum D) := by
    rintro _ o rfl
    rw [Bool.not_xor_not, Bool.xor_comm, Bool.xor_assoc, Bool.xor_self, Bool.xor_false]
  obtain ⟨hlines, hcolumns, -⟩ := codeLayout D
  have hle := linesEven_xor_linesOdd D
  have hce := columnsEven_xor_columnsOdd D
  have hweight := popcnt24_preOf D
  simp only [Work.accumulate_cs, Work.accumulate_le, Work.accumulate_lo, Work.accumulate_ce, Work.accumulate_co]
  refine ⟨parity8_columnSum D, ?accumulators, fun t ht => ?lines, fun t ht => ?columns⟩
  case accumulators =>
    split
    next hodd => simp only [hle, hce, hweight, if_pos hodd, and_self]
    next heven => simp only [hle, hce, hweight, if_neg heven, and_self]
  case lines =>
    obtain ⟨h0odd, h0even, h1odd, h1even⟩ := hlines t ht
    rw [h0odd, h0even, h1odd, h1even]
    exact ⟨hpair (latticeLP_eq_xor D _), hpair (latticeLP_eq_xor D _)⟩
  case columns =>
    obtain ⟨hodd, heven⟩ := hcolumns t ht
    rw [hodd, heven]
    exact hpair (latticeCP_eq_xor D _)

/-! ### `PRE` spells the accumulators -/

section
variable (D : Nat → Byte)

/-- The primed positions of the lines spell `LO` (R87). -/
theorem primedLines_preOf :
    byteOfBits (preOf D).b0[7] (preOf D).b0[5] (preOf D).b0[3] (preOf D).b0[1]
      (preOf D).b1[7] (preOf D).b1[5] (preOf D).b1[3] (preOf D).b1[1] = linesOdd D := by
  rw [← byteOfBits_getElem (linesOdd D)]
  simp [preOf_eq, Work.pre]

/-- The unprimed positions of the lines spell `LE` (R87). -/
theorem unprimedLines_preOf :
    byteOfBits (preOf D).b0[6] (preOf D).b0[4] (preOf D).b0[2] (preOf D).b0[0]
      (preOf D).b1[6] (preOf D).b1[4] (preOf D).b1[2] (preOf D).b1[0] = linesEven D := by
  rw [← byteOfBits_getElem (linesEven D)]
  simp [preOf_eq, Work.pre]

/-- The primed positions of the columns spell `CO` (R87). -/
theorem primedColumns_preOf :
    byteOfBits false false false false false (preOf D).b2[7] (preOf D).b2[5] (preOf D).b2[3] =
      columnsOdd (columnSum D) := by
  rw [← byteOfBits_low (columnsOdd_lt _)]
  simp [preOf_eq, Work.pre]

/-- The unprimed positions of the columns spell `CE` (R87). -/
theorem unprimedColumns_preOf :
    byteOfBits false false false false false (preOf D).b2[6] (preOf D).b2[4] (preOf D).b2[2] =
      columnsEven (columnSum D) := by
  rw [← byteOfBits_low (columnsEven_lt _)]
  simp [preOf_eq, Work.pre]

/-- The pad positions of `PRE` are 0 (R87). -/
theorem pad_preOf : (preOf D).b2[1] = false ∧ (preOf D).b2[0] = false := by
  simp [preOf_eq, Work.pre]

end

/-! ### One data bit -/

section
variable (b k : Nat)

theorem oneBit_same : oneBit b k b = flipBit 0#8 k := if_pos rfl

theorem oneBit_of_ne {i : Nat} (hi : i ≠ b) : oneBit b k i = 0#8 := if_neg hi

/-- Inverting a data bit is an XOR with the block that holds that bit alone. -/
theorem flipDataBit_eq_xor (D : Nat → Byte) : flipDataBit D b k = fun i => D i ^^^ oneBit b k i := by
  funext i
  by_cases hi : i = b
  · rw [hi, oneBit_same, flipDataBit, if_pos rfl, flipBit, flipBit, BitVec.zero_xor]
  · rw [oneBit_of_ne b k hi, flipDataBit, if_neg hi, BitVec.xor_zero]

/-- Inverting a data bit of any block changes its code by that bit's `PRE` (R137). -/
theorem codeOf_flipDataBit (D : Nat → Byte) : codeOf (flipDataBit D b k) = (codeOf D).xor (preOf (oneBit b k)) := by
  rw [flipDataBit_eq_xor, codeOf_xor]

variable {b k}

theorem columnSum_oneBit (hb : b < 256) : columnSum (oneBit b k) = flipBit 0#8 k := by
  rw [columnSum, xorFold_single hb fun i hi => oneBit_of_ne b k hi, oneBit_same]

theorem columnsOdd_flipBit_zero : ∀ k < 8, columnsOdd (flipBit 0#8 k) = BitVec.ofNat 8 k := by decide

section
variable (hb : b < 256) (hk : k < 8)
include hb hk

/-- The block holds an odd number of bits. -/
theorem parity8_columnSum_oneBit : parity8 (columnSum (oneBit b k)) = true := by
  rw [columnSum_oneBit hb, parity8_flipBit _ hk]
  rfl

/-- Line `b` alone has odd parity, and adds `b` (R137). -/
theorem linesOdd_oneBit : linesOdd (oneBit b k) = BitVec.ofNat 8 b := by
  have hother : ∀ i, i ≠ b → lineOdd (oneBit b k) i = 0#8 := fun i hi => by
    rw [lineOdd, oneBit_of_ne b k hi]
    rfl
  have hline : parity8 (oneBit b k b) = true := by
    rw [oneBit_same, parity8_flipBit _ hk]
    rfl
  rw [linesOdd, xorFold_single hb hother, lineOdd, if_pos hline]

/-- By the pair law `LE` is the complement of `LO` (R137). -/
theorem linesEven_oneBit : linesEven (oneBit b k) = ~~~(BitVec.ofNat 8 b) := by
  have hpair := linesEven_xor_linesOdd (oneBit b k)
  rw [parity8_columnSum_oneBit hb hk, if_pos rfl, linesOdd_oneBit hb hk] at hpair
  rw [(xor_eq_iff_left_eq ..).mp hpair]
  exact BitVec.allOnes_xor

/-- Column `k` alone is set in the column sum, and adds `k` (R137). -/
theorem columnsOdd_oneBit : columnsOdd (columnSum (oneBit b k)) = BitVec.ofNat 8 k := by
  rw [columnSum_oneBit hb, columnsOdd_flipBit_zero k hk]

/-- By the pair law `CE` is `7 - CO` (R137). -/
theorem columnsEven_oneBit : columnsEven (columnSum (oneBit b k)) = BitVec.ofNat 8 (7 - k) := by
  have hseven : ∀ k < 8, 7#8 ^^^ BitVec.ofNat 8 k = BitVec.ofNat 8 (7 - k) := by decide
  have hpair := columnsEven_xor_columnsOdd (oneBit b k)
  rw [parity8_columnSum_oneBit hb hk, if_pos rfl, columnsOdd_oneBit hb hk] at hpair
  rw [(xor_eq_iff_left_eq ..).mp hpair, hseven k hk]

/-- One data bit has weight 11 in the code (R137). -/
theorem popcnt24_preOf_oneBit : popcnt24 (preOf (oneBit b k)) = 11 := by
  rw [popcnt24_preOf, parity8_columnSum_oneBit hb hk, if_pos rfl]

end

end

/-- Settles O12: the odd accumulators are the address, the pair law gives their complements, and `PRE` spells the four
accumulators. -/
theorem oneDataBit : Obligations.OneDataBit := by
  intro b k hb hk
  have hlo := linesOdd_oneBit hb hk
  have hle := linesEven_oneBit hb hk
  have hco := columnsOdd_oneBit hb hk
  have hce := columnsEven_oneBit hb hk
  obtain ⟨hpad1, hpad0⟩ := pad_preOf (oneBit b k)
  refine ⟨fun r => ?registers, ?primedLines, ?unprimedLines, ?primedColumns, ?unprimedColumns, hpad1, hpad0,
    popcnt24_preOf_oneBit hb hk, codeOf_flipDataBit b k⟩
  case registers =>
    simp only [Work.accumulate_lo, Work.accumulate_le, Work.accumulate_co, Work.accumulate_ce]
    exact ⟨hlo, hle, hco, hce⟩
  case primedLines =>
    rw [primedLines_preOf, hlo, BitVec.toNat_ofNat, Nat.mod_eq_of_lt hb]
  case unprimedLines =>
    rw [unprimedLines_preOf, hle, BitVec.toNat_not, BitVec.toNat_ofNat, Nat.mod_eq_of_lt hb]
  case primedColumns =>
    rw [primedColumns_preOf, hco, BitVec.toNat_ofNat, Nat.mod_eq_of_lt (by omega)]
  case unprimedColumns =>
    rw [unprimedColumns_preOf, hce, BitVec.toNat_ofNat, Nat.mod_eq_of_lt (by omega)]

/-! ### Documented codes -/

theorem codeOf_zero : codeOf (fun _ => 0) = ⟨0xFF, 0xFF, 0xFF⟩ := by
  rw [codeOf_eq, preOf_zero]
  rfl

/-- The code of one data bit, from its address. -/
theorem codeOf_oneBit_A5_4 : codeOf (oneBit 0xA5 4) = ⟨0x66, 0x99, 0x6B⟩ := by
  rw [codeOf_eq, preOf_eq, linesOdd_oneBit (by decide) (by decide), linesEven_oneBit (by decide) (by decide),
    columnsOdd_oneBit (by decide) (by decide), columnsEven_oneBit (by decide) (by decide)]
  decide

/-- Settles O13: the zero block and the one data bit by their laws, the four other blocks by running the encoder. -/
theorem documentedCodes : Obligations.DocumentedCodes :=
  ⟨codeOf_zero, by decide +kernel, codeOf_oneBit_A5_4, by decide +kernel, by decide +kernel, by decide +kernel⟩

end Sys2Proof.Machine
end

section
/-! PROOFS. COMPUTE on whole buffers (42_compute_multi.md): the code bytes, the frame and the response of a command that
is accepted, and that none of them depends on what the code buffer held before. -/

namespace Sys2Proof.Machine

/-- Byte `k` of the three code bytes in memory (R54). -/
theorem byte_codeAt (m : List Host.Cell) (a : Nat) {k : Nat} (hk : k < 3) :
    (codeAt m a).byte k = Memory.read m (a + k) := by
  interval_cases k <;> rfl

section
variable {s : State} {c : Command} (hop : c.op = .compute)
include hop

/-- The code bytes that COMPUTE leaves are those of the blocks that it found (R152). -/
theorem State.read_afterCommand_compute {j k : Nat} (hj : j < blocks c.len) (hk : k < 3) :
    Memory.read (s.afterCommand c).mem (c.cbase + 3 * j + k) = (codeOf (blockAt s.mem (c.dbase + 256 * j))).byte k := by
  rw [← State.codeAt_afterCommand_compute hop j hj, byte_codeAt _ _ hk]

/-- The engine after an accepted COMPUTE: of the memory that the command found it holds the last block only, in the
working registers. -/
theorem State.afterCommand_eng_compute (hpos : 1 ≤ blocks c.len) :
    (s.afterCommand c).eng =
      { s.eng.start c with
        work := s.eng.work.compute256 (blockAt s.mem (c.dbase + 256 * (blocks c.len - 1)))
        blk := blocks c.len
        dp := (c.dbase + 256 * blocks c.len) % 2 ^ s.params.aw
        cp := (c.cbase + 3 * blocks c.len) % 2 ^ s.params.aw
        corr := s.eng.corr
        err := false
        cls := .noError
        busy := false } := by
  have hlast : min (blocks c.len) (blocks c.len - 1) = blocks c.len - 1 := by omega
  have hcls := State.afterCommand_cls_compute (s := s) hop
  simp only [State.afterCommand] at hcls ⊢
  rw [hcls]
  simp only [State.afterSlices, slicesDone_compute hop, slicesCorr_compute hop, slicesWork_compute hop, hlast]

end

/-- Settles O22: the closed form of the command, whose writes are the codes of the blocks that it found. -/
theorem computeCompletes : Obligations.ComputeCompletes := by
  intro i c s hcmd hop hidle hacc
  refine ⟨_, exec_of_accepts hcmd hidle hacc, fun j k hj hk => State.read_afterCommand_compute hop hj hk, fun a ha => ?_,
    rfl, State.afterCommand_cls_compute hop, rfl⟩
  refine State.read_afterCommand_compute_of_outside hop ?_
  simp only [blocks]
  omega

/-! ### The old contents of the code buffer -/

section
variable {s : State} {c : Command} {m : List Host.Cell} (hacc : s.Accepts c)
  (hm : ∀ a, a < c.cbase ∨ c.cbase + 3 * blocks c.len ≤ a → Memory.read m a = Memory.read s.mem a)
include hacc hm

/-- No block of an accepted command lies in the code buffer (R64). -/
theorem State.blockAt_eq_of_outside {j : Nat} (hj : j < blocks c.len) :
    ∀ i < 256, blockAt m (c.dbase + 256 * j) i = blockAt s.mem (c.dbase + 256 * j) i := by
  intro i hi
  obtain ⟨-, -, -, -, hdisjoint⟩ := hacc.buffers
  exact hm _ (by omega)

variable (hop : c.op = .compute)
include hop

/-- The registers depend on the last block, which reads the same in both memories. -/
theorem State.afterCommand_eng_eq_of_outside :
    (State.afterCommand { s with mem := m } c).eng = (s.afterCommand c).eng := by
  obtain ⟨-, hpos, -⟩ := hacc.buffers
  have hblock := State.blockAt_eq_of_outside hacc hm (j := blocks c.len - 1) (by omega)
  rw [State.afterCommand_eng_compute hop hpos, State.afterCommand_eng_compute hop hpos, Work.compute256_congr hblock]

/-- A code byte is that of its block in both memories, and a byte outside the code buffer stays in both. -/
theorem State.read_afterCommand_eq_of_outside (a : Nat) :
    Memory.read (State.afterCommand { s with mem := m } c).mem a = Memory.read (s.afterCommand c).mem a := by
  by_cases ha : c.cbase ≤ a ∧ a < c.cbase + 3 * blocks c.len
  · obtain ⟨j, k, hj, hk, rfl⟩ : ∃ j k, j < blocks c.len ∧ k < 3 ∧ a = c.cbase + 3 * j + k :=
      ⟨(a - c.cbase) / 3, (a - c.cbase) % 3, by omega, by omega, by omega⟩
    rw [State.read_afterCommand_compute hop hj hk, State.read_afterCommand_compute hop hj hk,
      codeOf_congr (State.blockAt_eq_of_outside hacc hm hj)]
  · rw [State.read_afterCommand_compute_of_outside hop ha, State.read_afterCommand_compute_of_outside hop ha]
    exact hm a (by omega)

end

/-- Settles O35: the command is accepted on either memory, and its closed form reads the blocks only. -/
theorem oldCodesAreNotRead : Obligations.OldCodesAreNotRead := by
  intro i c s m hcmd hop hidle hacc hm
  exact ⟨_, _, exec_of_accepts hcmd hidle hacc, exec_of_accepts (s := { s with mem := m }) hcmd hidle hacc,
    (State.afterCommand_eng_eq_of_outside hacc hm hop).symm,
    fun a => (State.read_afterCommand_eq_of_outside hacc hm hop a).symm⟩

end Sys2Proof.Machine
end

section
/-! PROOFS. VERIFY256 on one block (43_verify256.md): the weight and the address of the syndrome that a damage to the
data or to the stored code leaves, and the outcome of each weight. -/

namespace Sys2Proof.Machine

/-! ### The weight of a syndrome -/

/-- Only the zero byte holds no bit. -/
theorem popcnt8_eq_zero {v : Byte} : popcnt8 v = 0 ↔ v = 0#8 := by
  refine ⟨fun h => ?_, fun h => h ▸ rfl⟩
  simp only [popcnt8, Nat.add_eq_zero_iff, Bool.toNat_eq_zero] at h
  apply byte_ext <;> simp [h]

theorem popcnt24_zero : popcnt24 Code.zero = 0 := rfl

/-- Only the zero syndrome has weight 0 (R163, R164). -/
theorem popcnt24_eq_zero {sy : Code} : popcnt24 sy = 0 ↔ sy = Code.zero := by
  refine ⟨fun h => ?_, fun h => h ▸ popcnt24_zero⟩
  simp only [popcnt24, Nat.add_eq_zero_iff, popcnt8_eq_zero] at h
  obtain ⟨⟨h0, h1⟩, h2⟩ := h
  exact Code.ext_bytes h0 h1 h2

/-- MultipleBitsUncorrectable means every weight but 0, 1 and 11 (R167). -/
theorem classify_eq_multiple {sy : Code} :
    classify sy = .multipleBitsUncorrectable ↔ popcnt24 sy ≠ 0 ∧ popcnt24 sy ≠ 1 ∧ popcnt24 sy ≠ 11 := by
  rw [Ne, popcnt24_eq_zero, Ne, ← classify_eq_ecc, Ne, ← classify_eq_single, ← classify_eq_noError]
  cases classify sy <;> decide

/-- A block that is not SingleBitCorrected is not written (R168). -/
theorem correction_of_ne_single {sy : Code} (h : classify sy ≠ .singleBitCorrected) (D : Nat → Byte) (dp : Nat) :
    correction D dp sy = [] := if_neg h

theorem correction_of_single {sy : Code} (h : classify sy = .singleBitCorrected) (D : Nat → Byte) (dp : Nat) :
    correction D dp sy =
      [(dp + (byteOffset sy).toNat, flipBit (D (byteOffset sy).toNat) (bitOffset sy).toNat)] := if_pos h

theorem correction_of_multiple {sy : Code} (h : classify sy = .multipleBitsUncorrectable) (D : Nat → Byte) (dp : Nat) :
    correction D dp sy = [] := correction_of_ne_single (by rw [h]; decide) D dp

/-! ### What VERIFY256 leaves -/

section
variable {D : Nat → Byte} {sc : Code} (r : Work)

/-- The weight is written unless the syndrome is zero (R163, R164). -/
theorem Work.verify256_w :
    (r.verify256 D sc).w = if (codeOf D).xor sc = Code.zero then r.w else popcnt24 ((codeOf D).xor sc) := by
  rw [Work.verify256_eq]

/-- The offsets are written under weight 11 (R165). -/
theorem Work.verify256_offsets_of_single (h : classify ((codeOf D).xor sc) = .singleBitCorrected) :
    (r.verify256 D sc).byteOff = byteOffset ((codeOf D).xor sc) ∧
      (r.verify256 D sc).bitOff = bitOffset ((codeOf D).xor sc) := by
  rw [Work.verify256_eq]
  exact ⟨if_pos h, if_pos h⟩

/-- The offsets and the block keep their values under every other weight (R168, assumption 13). -/
theorem Work.verify256_kept_of_ne_single (h : classify ((codeOf D).xor sc) ≠ .singleBitCorrected) (dp : Nat) :
    (r.verify256 D sc).byteOff = r.byteOff ∧ (r.verify256 D sc).bitOff = r.bitOff ∧
      correction D dp ((codeOf D).xor sc) = [] := by
  rw [Work.verify256_eq]
  exact ⟨if_neg h, if_neg h, correction_of_ne_single h D dp⟩

end

/-- Settles O15: the registers written always are read off the closed form, and the weight decides the outcome. -/
theorem verify256Outcomes : Obligations.Verify256Outcomes := by
  intro D sc r dp sy q w
  have hw : w = popcnt24 sy := rfl
  have hother (h : classify sy ≠ .singleBitCorrected) := Work.verify256_kept_of_ne_single r h dp
  have hregs : q.cc = codeOf D ∧ q.sc = sc ∧ q.cs = columnSum D ∧ q.le = linesEven D ∧ q.lo = linesOdd D ∧
      q.ce = columnsEven (columnSum D) ∧ q.co = columnsOdd (columnSum D) ∧ q.i = 8 := by
    simp only [q, Work.verify256_eq, and_self]
  obtain ⟨hcc, hsc, hcs, hle, hlo, hce, hco, hi⟩ := hregs
  simp only [Work.accumulate_cs, Work.accumulate_le, Work.accumulate_lo, Work.accumulate_ce, Work.accumulate_co,
    Work.accumulate_i]
  refine ⟨hcc, hsc, Work.verify256_sy D sc r, hcs, hle, hlo, hce, hco, hi, fun hzero => ?zero, fun hne => ?nonzero,
    fun h11 => ?eleven, fun h1 => ?one, fun h0 h1 h11 => ?other⟩
  case zero =>
    have hclass : classify sy = .noError := classify_eq_noError.mpr hzero
    exact ⟨hclass, (Work.verify256_w r).trans (if_pos hzero), hother (by rw [hclass]; decide)⟩
  case nonzero =>
    have hpos : w ≠ 0 := fun h => hne (popcnt24_eq_zero.mp h)
    exact ⟨Nat.pos_of_ne_zero hpos, popcnt24_le sy, (Work.verify256_w r).trans (if_neg hne)⟩
  case eleven =>
    have hclass : classify sy = .singleBitCorrected := classify_eq_single.mpr h11
    obtain ⟨hbyte, hbit⟩ := Work.verify256_offsets_of_single r hclass
    exact ⟨hclass, hbyte, hbit, correction_of_single hclass D dp⟩
  case one =>
    have hclass : classify sy = .eccCorrupted := classify_eq_ecc.mpr h1
    exact ⟨hclass, hother (by rw [hclass]; decide)⟩
  case other =>
    have hclass : classify sy = .multipleBitsUncorrectable := classify_eq_multiple.mpr ⟨h0, h1, h11⟩
    exact ⟨hclass, hother (by rw [hclass]; decide)⟩

/-! ### Damage to the data -/

section
variable (A B : Nat → Byte)

theorem linesOdd_xor : linesOdd (fun i => A i ^^^ B i) = linesOdd A ^^^ linesOdd B := by
  simp only [linesOdd_eq_lattice, latticeLP', xorWhere_xor, byteOfBits_xor]

theorem columnSum_xor : columnSum (fun i => A i ^^^ B i) = columnSum A ^^^ columnSum B := xorFold_xor A B 256

theorem columnsOdd_columnSum_xor :
    columnsOdd (columnSum fun i => A i ^^^ B i) = columnsOdd (columnSum A) ^^^ columnsOdd (columnSum B) := by
  simp only [columnsOdd_eq_lattice, latticeCP', xorWhere_xor, ← byteOfBits_xor, Bool.xor_self]

end

/-- `PRE` is decided by the parity of the block and by `LO` and `CO`, since the pair law gives `LE` and `CE` (R136). -/
theorem preOf_eq_of_accumulators {D E : Nat → Byte} (hparity : parity8 (columnSum D) = parity8 (columnSum E))
    (hlines : linesOdd D = linesOdd E) (hcolumns : columnsOdd (columnSum D) = columnsOdd (columnSum E)) :
    preOf D = preOf E := by
  have hle : linesEven D = linesEven E := by
    rw [(xor_eq_iff_left_eq ..).mp (linesEven_xor_linesOdd D), (xor_eq_iff_left_eq ..).mp (linesEven_xor_linesOdd E),
      hparity, hlines]
  have hce : columnsEven (columnSum D) = columnsEven (columnSum E) := by
    rw [(xor_eq_iff_left_eq ..).mp (columnsEven_xor_columnsOdd D),
      (xor_eq_iff_left_eq ..).mp (columnsEven_xor_columnsOdd E), hparity, hcolumns]
  rw [preOf_eq, preOf_eq, hle, hlines, hce, hcolumns]

section
variable (D : Nat → Byte) {b k : Nat} (hb : b < 256) (hk : k < 8)
include hb hk

/-- An inverted data bit inverts the parity of the block, and adds its address to `LO` and `CO` (R135, R137). -/
theorem accumulators_flipDataBit :
    parity8 (columnSum (flipDataBit D b k)) = !parity8 (columnSum D) ∧
      linesOdd (flipDataBit D b k) = linesOdd D ^^^ BitVec.ofNat 8 b ∧
      columnsOdd (columnSum (flipDataBit D b k)) = columnsOdd (columnSum D) ^^^ BitVec.ofNat 8 k := by
  rw [flipDataBit_eq_xor, columnsOdd_columnSum_xor, linesOdd_xor, columnSum_xor, parity8_xor,
    parity8_columnSum_oneBit hb hk, linesOdd_oneBit hb hk, columnsOdd_oneBit hb hk, Bool.xor_true]
  exact ⟨rfl, rfl, rfl⟩

end

/-- The damaged bits alone make up the difference. -/
theorem flipDataBits_eq_xor (ps : List (Nat × Nat)) :
    ∀ D E : Nat → Byte, flipDataBits (fun i => D i ^^^ E i) ps = fun i => D i ^^^ flipDataBits E ps i := by
  induction ps with
  | nil => exact fun _ _ => rfl
  | cons p ps ih =>
    intro D E
    have hfirst : flipDataBit (fun i => D i ^^^ E i) p.1 p.2 = fun i => D i ^^^ flipDataBit E p.1 p.2 i := by
      simp only [flipDataBit_eq_xor, BitVec.xor_assoc]
    exact (congrArg (flipDataBits · ps) hfirst).trans (ih D _)

/-- The syndrome of a damage to the data is `PRE` of the damaged bits alone (R135). -/
theorem codeOf_flipDataBits_xor_codeOf (D : Nat → Byte) (ps : List (Nat × Nat)) :
    (codeOf (flipDataBits D ps)).xor (codeOf D) = preOf (flipDataBits (fun _ => 0#8) ps) := by
  have hdamage : flipDataBits D ps = fun i => D i ^^^ flipDataBits (fun _ => 0#8) ps i := by
    rw [← flipDataBits_eq_xor]
    simp only [BitVec.xor_zero]
  rw [hdamage, codeOf_xor, Code.xor_comm, ← Code.xor_assoc, Code.xor_self, Code.zero_xor]

/-- The parity, `LO` and `CO` after a damage to the data: the number of inverted bits mod 2, and the XOR of their
addresses, from those of the block before. -/
theorem accumulators_flipDataBits (ps : List (Nat × Nat)) :
    ∀ {D : Nat → Byte} {n a k : Nat}, (∀ p ∈ ps, p.1 < 256 ∧ p.2 < 8) →
      parity8 (columnSum D) = decide (n % 2 = 1) → linesOdd D = BitVec.ofNat 8 a →
      columnsOdd (columnSum D) = BitVec.ofNat 8 k →
      parity8 (columnSum (flipDataBits D ps)) = decide ((n + ps.length) % 2 = 1) ∧
        linesOdd (flipDataBits D ps) = BitVec.ofNat 8 (ps.foldl (fun a p => a ^^^ p.1) a) ∧
        columnsOdd (columnSum (flipDataBits D ps)) = BitVec.ofNat 8 (ps.foldl (fun a p => a ^^^ p.2) k) := by
  induction ps with
  | nil => exact fun _ hparity hlines hcolumns => ⟨hparity, hlines, hcolumns⟩
  | cons p ps ih =>
    intro D n a k hps hparity hlines hcolumns
    obtain ⟨hp, hps⟩ := List.forall_mem_cons.mp hps
    obtain ⟨hparity', hlines', hcolumns'⟩ := accumulators_flipDataBit D hp.1 hp.2
    rw [hlines, ← BitVec.ofNat_xor] at hlines'
    rw [hcolumns, ← BitVec.ofNat_xor] at hcolumns'
    have hnext : parity8 (columnSum (flipDataBit D p.1 p.2)) = decide ((n + 1) % 2 = 1) := by
      rw [hparity', hparity, ← decide_not, decide_eq_decide]
      omega
    rw [List.length_cons, Nat.add_comm ps.length, ← Nat.add_assoc]
    exact ih hps hnext hlines' hcolumns'

/-- The parity, `LO` and `CO` of the damaged bits alone. -/
theorem accumulators_flipDataBits_zero {ps : List (Nat × Nat)} (hps : ∀ p ∈ ps, p.1 < 256 ∧ p.2 < 8) :
    parity8 (columnSum (flipDataBits (fun _ => 0#8) ps)) = decide (ps.length % 2 = 1) ∧
      linesOdd (flipDataBits (fun _ => 0#8) ps) = BitVec.ofNat 8 (ps.foldl (fun a p => a ^^^ p.1) 0) ∧
      columnsOdd (columnSum (flipDataBits (fun _ => 0#8) ps)) = BitVec.ofNat 8 (ps.foldl (fun a p => a ^^^ p.2) 0) := by
  have hsum : columnSum (fun _ => 0#8) = 0#8 := xorFold_const_zero 256
  have hlines : linesOdd (fun _ => 0#8) = 0#8 :=
    (linesOdd_xor (fun _ => 0#8) fun _ => 0#8).trans BitVec.xor_self
  have h := accumulators_flipDataBits ps (n := 0) (a := 0) (k := 0) hps (by rw [hsum]; rfl) hlines (by rw [hsum]; rfl)
  rwa [Nat.zero_add] at h

/-- The damaged bits count by their number mod 2 and by the XOR of their addresses only (R172, R173). -/
theorem preOf_flipDataBits_congr {ps qs : List (Nat × Nat)} (hps : ∀ p ∈ ps, p.1 < 256 ∧ p.2 < 8)
    (hqs : ∀ q ∈ qs, q.1 < 256 ∧ q.2 < 8) (hlength : ps.length % 2 = qs.length % 2)
    (hbytes : ps.foldl (fun a p => a ^^^ p.1) 0 = qs.foldl (fun a p => a ^^^ p.1) 0)
    (hbits : ps.foldl (fun a p => a ^^^ p.2) 0 = qs.foldl (fun a p => a ^^^ p.2) 0) :
    preOf (flipDataBits (fun _ => 0#8) ps) = preOf (flipDataBits (fun _ => 0#8) qs) := by
  obtain ⟨hparity, hlines, hcolumns⟩ := accumulators_flipDataBits_zero hps
  obtain ⟨hparity', hlines', hcolumns'⟩ := accumulators_flipDataBits_zero hqs
  refine preOf_eq_of_accumulators ?_ ?_ ?_
  · rw [hparity, hparity', hlength]
  · rw [hlines, hlines', hbytes]
  · rw [hcolumns, hcolumns', hbits]

/-! ### One, three and any even number of data bits -/

section
variable {b k : Nat} (hb : b < 256) (hk : k < 8)
include hb hk

/-- The syndrome of one data bit is SingleBitCorrected, at its address (R169). -/
theorem preOf_oneBit_located :
    classify (preOf (oneBit b k)) = .singleBitCorrected ∧
      (byteOffset (preOf (oneBit b k))).toNat = b ∧ (bitOffset (preOf (oneBit b k))).toNat = k := by
  obtain ⟨-, hbyte, -, hbit, -⟩ := oneDataBit b k hb hk
  exact ⟨classify_eq_single.mpr (popcnt24_preOf_oneBit hb hk), hbyte, (bitOffset_toNat _).trans hbit⟩

end

theorem codeOf_flipDataBit_xor_codeOf (D : Nat → Byte) (b k : Nat) :
    (codeOf (flipDataBit D b k)).xor (codeOf D) = preOf (oneBit b k) :=
  codeOf_flipDataBits_xor_codeOf D [(b, k)]

/-- Inverting a data bit twice restores the block. -/
theorem flipDataBit_flipDataBit (D : Nat → Byte) (b k : Nat) : flipDataBit (flipDataBit D b k) b k = D := by
  funext i
  by_cases hi : i = b <;> simp [flipDataBit, hi]

/-- Settles O16: the syndrome is that of the one bit, and two inversions cancel. -/
theorem singleBitErrorIsLocated : Obligations.SingleBitErrorIsLocated := by
  intro D b k hb hk
  obtain ⟨hclass, hbyte, hbit⟩ := preOf_oneBit_located hb hk
  simp only [codeOf_flipDataBit_xor_codeOf, hbyte, hbit]
  exact ⟨trivial, popcnt24_preOf_oneBit hb hk, hclass, trivial, trivial, congrFun (flipDataBit_flipDataBit D b k)⟩

/-- Settles O18: three bits count like the one at the XOR of their addresses. -/
theorem threeBitErrorsAreMiscorrected : Obligations.ThreeBitErrorsAreMiscorrected := by
  intro D b₁ k₁ b₂ k₂ b₃ k₃ hb₁ hk₁ hb₂ hk₂ hb₃ hk₃
  have hb : b₁ ^^^ b₂ ^^^ b₃ < 256 := Nat.xor_lt_two_pow (n := 8) (Nat.xor_lt_two_pow hb₁ hb₂) hb₃
  have hk : k₁ ^^^ k₂ ^^^ k₃ < 8 := Nat.xor_lt_two_pow (n := 3) (Nat.xor_lt_two_pow hk₁ hk₂) hk₃
  have hsyndrome : (codeOf (flipDataBits D [(b₁, k₁), (b₂, k₂), (b₃, k₃)])).xor (codeOf D) =
      preOf (oneBit (b₁ ^^^ b₂ ^^^ b₃) (k₁ ^^^ k₂ ^^^ k₃)) := by
    rw [codeOf_flipDataBits_xor_codeOf]
    exact preOf_flipDataBits_congr (qs := [(b₁ ^^^ b₂ ^^^ b₃, k₁ ^^^ k₂ ^^^ k₃)]) (by simp [*]) (by simp [*])
      (by simp) (by simp) (by simp)
  simp only [hsyndrome]
  exact ⟨trivial, preOf_oneBit_located hb hk⟩

/-- Settles O19: bits whose addresses cancel count like no bit at all. -/
theorem cancellingErrorsAreMissed : Obligations.CancellingErrorsAreMissed := by
  intro D ps hps heven hbytes hbits
  have hsyndrome : (codeOf (flipDataBits D ps)).xor (codeOf D) = Code.zero := by
    rw [codeOf_flipDataBits_xor_codeOf, ← preOf_zero]
    exact preOf_flipDataBits_congr (qs := []) hps (by simp) heven hbytes hbits
  exact ⟨hsyndrome, classify_eq_noError.mpr hsyndrome⟩

/-! ### Two data bits -/

theorem popcnt8_pos {v : Byte} (h : v ≠ 0#8) : 1 ≤ popcnt8 v := Nat.pos_of_ne_zero (popcnt8_eq_zero.not.mpr h)

/-- Two addresses that differ, differ in a bit. -/
theorem ofNat_xor_ofNat_ne_zero {a b : Nat} (ha : a < 256) (hb : b < 256) (h : a ≠ b) :
    BitVec.ofNat 8 a ^^^ BitVec.ofNat 8 b ≠ 0#8 := by
  rw [Ne, BitVec.xor_eq_zero_iff]
  bv_omega

section
variable (D : Nat → Byte) {b₁ k₁ b₂ k₂ : Nat} (hb₁ : b₁ < 256) (hk₁ : k₁ < 8) (hb₂ : b₂ < 256) (hk₂ : k₂ < 8)
include hb₁ hk₁ hb₂ hk₂

/-- By the pair law the weight of two data bits is even: twice the number of address bits in which they differ
(R136, R171). -/
theorem popcnt24_flipDataBit_flipDataBit :
    popcnt24 ((codeOf (flipDataBit (flipDataBit D b₁ k₁) b₂ k₂)).xor (codeOf D)) =
      2 * (popcnt8 (BitVec.ofNat 8 b₁ ^^^ BitVec.ofNat 8 b₂) + popcnt8 (BitVec.ofNat 8 k₁ ^^^ BitVec.ofNat 8 k₂)) := by
  have hsyndrome := codeOf_flipDataBits_xor_codeOf D [(b₁, k₁), (b₂, k₂)]
  obtain ⟨hparity, hlines, hcolumns⟩ := accumulators_flipDataBits_zero (ps := [(b₁, k₁), (b₂, k₂)]) (by simp [*])
  simp only [List.foldl_cons, List.foldl_nil, Nat.zero_xor, BitVec.ofNat_xor] at hlines hcolumns
  refine (congrArg popcnt24 hsyndrome).trans ?_
  rw [popcnt24_preOf, hparity, hlines, hcolumns]
  exact if_neg (by simp)

end

/-! ### Damage to the stored code -/

/-- Bit `q` of the 24 bits of a code: bit `q % 8` of byte `q / 8`. -/
def Code.bit (c : Code) (q : Nat) : Bool := (c.byte (q / 8)).getLsbD (q % 8)

/-- Inverting a bit adds it to the population count, or takes it away. -/
theorem popcnt8_flipBit (v : Byte) {k : Nat} (hk : k < 8) :
    popcnt8 (flipBit v k) + (v.getLsbD k).toNat = popcnt8 v + (!v.getLsbD k).toNat := by
  simp only [popcnt8, ← BitVec.getLsbD_eq_getElem, getLsbD_flipBit, Nat.reduceLT]
  interval_cases k <;> simp <;> omega

/-- An inverted code bit changes its own byte only. -/
theorem byte_flipCodeBit (c : Code) (q : Nat) {p : Nat} (hp : p < 3) :
    (flipCodeBit c q).byte p = if q / 8 = p then flipBit (c.byte p) (q % 8) else c.byte p := by
  interval_cases p <;> rfl

theorem bit_flipCodeBit (c : Code) (q : Nat) {j : Nat} (hj : j < 24) :
    (flipCodeBit c q).bit j = xor (c.bit j) (decide (j = q)) := by
  rw [Code.bit, byte_flipCodeBit c q (by omega), Code.bit]
  split
  case isTrue hbyte =>
    have hiff : j % 8 = q % 8 ↔ j = q := by omega
    rw [getLsbD_flipBit _ (Nat.mod_lt j (by decide)), decide_eq_decide.mpr hiff]
  case isFalse hbyte =>
    have hne : j ≠ q := fun h => hbyte (h ▸ rfl)
    rw [decide_eq_false hne, Bool.xor_false]

/-- Inverting a code bit adds it to the weight, or takes it away (R112). -/
theorem popcnt24_flipCodeBit (c : Code) {q : Nat} (hq : q < 24) :
    popcnt24 (flipCodeBit c q) + (c.bit q).toNat = popcnt24 c + (!c.bit q).toNat := by
  have hbytes (a : Code) : popcnt24 a = popcnt8 (a.byte 0) + popcnt8 (a.byte 1) + popcnt8 (a.byte 2) := rfl
  have hflip := popcnt8_flipBit (c.byte (q / 8)) (Nat.mod_lt q (by decide : 8 > 0))
  have hplace : q / 8 = 0 ∨ q / 8 = 1 ∨ q / 8 = 2 := by omega
  rw [hbytes, hbytes, byte_flipCodeBit c q (by decide), byte_flipCodeBit c q (by decide),
    byte_flipCodeBit c q (by decide), Code.bit]
  rcases hplace with h | h | h
  all_goals
    rw [h] at hflip ⊢
    simp only [Nat.reduceEqDiff, if_true, if_false]
    omega

theorem popcnt24_flipCodeBit_of_clear {c : Code} {q : Nat} (hq : q < 24) (h : c.bit q = false) :
    popcnt24 (flipCodeBit c q) = popcnt24 c + 1 := by
  simpa [h] using popcnt24_flipCodeBit c hq

/-- An inverted code bit stands in the syndrome as it does in the code (R162). -/
theorem Code.xor_flipCodeBit (a c : Code) (q : Nat) : a.xor (flipCodeBit c q) = flipCodeBit (a.xor c) q := by
  apply Code.ext_bytes <;> simp only [flipCodeBit, Code.xor_b0, Code.xor_b1, Code.xor_b2] <;> split <;>
    simp [flipBit, BitVec.xor_assoc]

/-- Two codes with no difference are equal. -/
theorem Code.xor_eq_zero {a b : Code} : a.xor b = Code.zero ↔ a = b := by
  refine ⟨fun h => ?_, fun h => h ▸ Code.xor_self a⟩
  rw [← Code.xor_zero a, ← Code.xor_self b, ← Code.xor_assoc, h, Code.zero_xor]

theorem Code.bit_zero (q : Nat) : Code.zero.bit q = false := by
  simp [Code.bit, Code.byte, Code.zero]

/-- The syndrome of one damaged code bit has weight 1 (R177). -/
theorem popcnt24_flipCodeBit_zero {q : Nat} (hq : q < 24) : popcnt24 (flipCodeBit Code.zero q) = 1 :=
  popcnt24_flipCodeBit_of_clear hq (Code.bit_zero q)

/-- The syndrome of two damaged code bits has weight 2 (R171). -/
theorem popcnt24_flipCodeBit_flipCodeBit_zero {q₁ q₂ : Nat} (hq₁ : q₁ < 24) (hq₂ : q₂ < 24) (h : q₁ ≠ q₂) :
    popcnt24 (flipCodeBit (flipCodeBit Code.zero q₁) q₂) = 2 := by
  have hclear : (flipCodeBit Code.zero q₁).bit q₂ = false := by
    rw [bit_flipCodeBit _ _ hq₂, Code.bit_zero, decide_eq_false h.symm, Bool.xor_false]
  rw [popcnt24_flipCodeBit_of_clear hq₂ hclear, popcnt24_flipCodeBit_zero hq₁]

section
variable (D : Nat → Byte)

theorem codeOf_xor_flipCodeBit (q : Nat) :
    (codeOf D).xor (flipCodeBit (codeOf D) q) = flipCodeBit Code.zero q := by
  rw [Code.xor_flipCodeBit, Code.xor_self]

theorem codeOf_xor_flipCodeBit_flipCodeBit (q₁ q₂ : Nat) :
    (codeOf D).xor (flipCodeBit (flipCodeBit (codeOf D) q₁) q₂) = flipCodeBit (flipCodeBit Code.zero q₁) q₂ := by
  rw [Code.xor_flipCodeBit, codeOf_xor_flipCodeBit]

theorem codeOf_flipDataBit_xor_flipCodeBit (b k q : Nat) :
    (codeOf (flipDataBit D b k)).xor (flipCodeBit (codeOf D) q) = flipCodeBit (preOf (oneBit b k)) q := by
  rw [Code.xor_flipCodeBit, codeOf_flipDataBit_xor_codeOf]

/-- One damaged code bit is EccCorrupted (R166, R177). -/
theorem classify_flipCodeBit {q : Nat} (hq : q < 24) :
    classify ((codeOf D).xor (flipCodeBit (codeOf D) q)) = .eccCorrupted := by
  rw [codeOf_xor_flipCodeBit, classify_eq_ecc, popcnt24_flipCodeBit_zero hq]

end

/-- Settles O17: two data bits have even weight, a code bit adds 1 to the weight 11 of a data bit or takes 1 away, and
two code bits are the whole syndrome. -/
theorem twoBitErrorsAreDetected : Obligations.TwoBitErrorsAreDetected := by
  intro D
  refine ⟨fun b₁ k₁ b₂ k₂ hb₁ hk₁ hb₂ hk₂ hne => ?data, fun b k q hb hk hq => ?mixed, fun q₁ q₂ hq₁ hq₂ hne => ?code⟩
  case data =>
    intro sy
    have hweight : popcnt24 sy = _ := popcnt24_flipDataBit_flipDataBit D hb₁ hk₁ hb₂ hk₂
    have hpos : 1 ≤ popcnt8 (BitVec.ofNat 8 b₁ ^^^ BitVec.ofNat 8 b₂) ∨
        1 ≤ popcnt8 (BitVec.ofNat 8 k₁ ^^^ BitVec.ofNat 8 k₂) := by
      by_cases hb : b₁ = b₂
      · exact .inr (popcnt8_pos (ofNat_xor_ofNat_ne_zero (by omega) (by omega) fun hk => hne ⟨hb, hk⟩))
      · exact .inl (popcnt8_pos (ofNat_xor_ofNat_ne_zero hb₁ hb₂ hb))
    exact ⟨hweight, by omega, classify_eq_multiple.mpr (by omega)⟩
  case mixed =>
    intro sy
    have hsyndrome : sy = flipCodeBit (preOf (oneBit b k)) q := codeOf_flipDataBit_xor_flipCodeBit D b k q
    have hflip := popcnt24_flipCodeBit (preOf (oneBit b k)) hq
    rw [← hsyndrome, popcnt24_preOf_oneBit hb hk] at hflip
    have hweight : popcnt24 sy = 10 ∨ popcnt24 sy = 12 := by
      cases hbit : (preOf (oneBit b k)).bit q <;> rw [hbit] at hflip
      · exact .inr hflip
      · exact .inl (Nat.succ.inj hflip)
    exact ⟨hweight, classify_eq_multiple.mpr (by omega)⟩
  case code =>
    intro sy
    have hsyndrome : sy = flipCodeBit (flipCodeBit Code.zero q₁) q₂ := codeOf_xor_flipCodeBit_flipCodeBit D q₁ q₂
    have hweight : popcnt24 sy = 2 := by rw [hsyndrome, popcnt24_flipCodeBit_flipCodeBit_zero hq₁ hq₂ hne]
    exact ⟨hweight, classify_eq_multiple.mpr (by omega)⟩

/-- Settles O20: `PRE` is 0 in the pad positions, so a wrong pad bit adds 1 to the weight, and no computed code has
one. -/
theorem padBitsCount : Obligations.PadBitsCount := by
  refine ⟨fun D => ?intact, fun D b k q dp hb hk hq => ?damaged, fun D sc hpad hnoError => ?never⟩
  case intact =>
    obtain ⟨-, -, hpad1, hpad0⟩ := codeLayout D
    obtain ⟨-, -, htwo⟩ := twoBitErrorsAreDetected D
    have hone (q : Nat) (hq : q < 24) : popcnt24 ((codeOf D).xor (flipCodeBit (codeOf D) q)) = 1 :=
      classify_eq_ecc.mp (classify_flipCodeBit D hq)
    exact ⟨hpad1, hpad0, classify_eq_noError.mpr (Code.xor_self _), hone 16 (by decide),
      classify_flipCodeBit D (by decide), hone 17 (by decide), classify_flipCodeBit D (by decide),
      htwo 16 17 (by decide) (by decide) (by decide)⟩
  case damaged =>
    intro sy
    obtain ⟨hpad1, hpad0⟩ := pad_preOf (oneBit b k)
    have hclear : (preOf (oneBit b k)).bit q = false := by
      rcases hq with rfl | rfl
      · exact hpad0
      · exact hpad1
    have hsyndrome : sy = flipCodeBit (preOf (oneBit b k)) q := codeOf_flipDataBit_xor_flipCodeBit D b k q
    have hweight : popcnt24 sy = 12 := by
      rw [hsyndrome, popcnt24_flipCodeBit_of_clear (by omega) hclear, popcnt24_preOf_oneBit hb hk]
    have hclass : classify sy = .multipleBitsUncorrectable := classify_eq_multiple.mpr (by omega)
    exact ⟨hweight, hclass, correction_of_multiple hclass _ _⟩
  case never =>
    obtain ⟨-, -, hpads⟩ := codeLayout D
    have hsame : codeOf D = sc := Code.xor_eq_zero.mp (classify_eq_noError.mp hnoError)
    exact hpad (hsame ▸ hpads)

/-- Settles O21: the one bit that is located and the two bits that are detected, with the writes that their
classifications make. -/
theorem fourBlockProperties : Obligations.FourBlockProperties := by
  intro D dp
  obtain ⟨hdata, hmixed, hcode⟩ := twoBitErrorsAreDetected D
  have hclean : classify ((codeOf D).xor (codeOf D)) = .noError := classify_eq_noError.mpr (Code.xor_self _)
  refine ⟨⟨hclean, correction_of_ne_single (by rw [hclean]; decide) D dp⟩, fun b k hb hk => ?single,
    fun q hq => ?codeBit, fun E sc hdamage => ?double⟩
  case single =>
    obtain ⟨-, -, hclass, hbyte, hbit, hrestored⟩ := singleBitErrorIsLocated D b k hb hk
    have hsame := hrestored b
    rw [hbyte, hbit, flipDataBit, if_pos rfl] at hsame
    refine ⟨hclass, ?_⟩
    rw [correction_of_single hclass, hbyte, hbit, hsame]
  case codeBit =>
    have hclass := classify_flipCodeBit D hq
    exact ⟨hclass, correction_of_ne_single (by rw [hclass]; decide) D dp⟩
  case double =>
    have hclass : classify ((codeOf E).xor sc) = .multipleBitsUncorrectable := by
      rcases hdamage with ⟨b₁, k₁, b₂, k₂, hb₁, hk₁, hb₂, hk₂, hne, rfl, rfl⟩ | ⟨b, k, q, hb, hk, hq, rfl, rfl⟩ |
        ⟨q₁, q₂, hq₁, hq₂, hne, rfl, rfl⟩
      · obtain ⟨-, -, hclass⟩ := hdata b₁ k₁ b₂ k₂ hb₁ hk₁ hb₂ hk₂ hne
        exact hclass
      · obtain ⟨-, hclass⟩ := hmixed b k q hb hk hq
        exact hclass
      · obtain ⟨-, hclass⟩ := hcode q₁ q₂ hq₁ hq₂ hne
        exact hclass
    exact ⟨hclass, correction_of_multiple hclass E dp⟩

end Sys2Proof.Machine
end

section
/-! PROOFS. VERIFY on whole buffers that hold the code of every block, intact or with one damaged bit, and a VERIFY256
that is repeated (43_verify256.md R175, R177; 44_verify_multi.md R188). -/

namespace Sys2Proof.Machine

/-! ### The response and the memory of a VERIFY, from the classifications of its slices -/

/-- The scan stops at slice `k` if no slice before it is a hard failure, and it is one unless it is the end. -/
theorem slicesDone_eq {m : List Host.Cell} {c : Command} {k : Nat} (hk : k ≤ blocks c.len)
    (hsoft : ∀ j < k, (sliceClassAt m c j).hard = false)
    (hstop : k < blocks c.len → (sliceClassAt m c k).hard = true) : slicesDone m c = k := by
  rcases lt_trichotomy (slicesDone m c) k with hlt | heq | hgt
  · exact absurd (hard_at_slicesDone (hlt.trans_le hk)) (by rw [hsoft _ hlt]; decide)
  · exact heq
  · exact absurd (hstop (hgt.trans_le slicesDone_le)) (by rw [soft_of_lt_slicesDone hgt]; decide)

theorem slicesDone_of_soft {m : List Host.Cell} {c : Command}
    (hsoft : ∀ j < blocks c.len, (sliceClassAt m c j).hard = false) : slicesDone m c = blocks c.len :=
  slicesDone_eq le_rfl hsoft fun h => absurd h (lt_irrefl _)

section
variable {s : State} {c : Command} (hop : c.op = .verify)
include hop

/-- The response to the first hard failure (R184). -/
theorem State.afterCommand_cls_of_hard {k : Nat} (hk : k < blocks c.len)
    (hsoft : ∀ j < k, (classAt s.mem c j).hard = false) (hhard : (classAt s.mem c k).hard = true) :
    (s.afterCommand c).eng.cls = classAt s.mem c k := by
  rw [← sliceClassAt_verify hop] at hsoft hhard ⊢
  have hdone := slicesDone_eq hk.le hsoft fun _ => hhard
  simp only [State.afterCommand, hdone, if_pos hk]

/-- The response without a hard failure (R185). -/
theorem State.afterCommand_cls_of_soft (hsoft : ∀ j < blocks c.len, (classAt s.mem c j).hard = false) :
    (s.afterCommand c).eng.cls =
      finalClass .verify ((List.range (blocks c.len)).any fun j => classAt s.mem c j == .singleBitCorrected) := by
  rw [← sliceClassAt_verify hop] at hsoft
  have hdone := slicesDone_of_soft hsoft
  simp only [State.afterCommand, hdone, lt_irrefl, if_false, hop, slicesCorr_verify hop]

/-- A VERIFY that corrects no slice leaves memory as it is (R168). -/
theorem State.afterCommand_mem_of_uncorrected (h : ∀ j < blocks c.len, classAt s.mem c j ≠ .singleBitCorrected) :
    (s.afterCommand c).mem = s.mem := by
  have hwrites : slicesWrites s.mem c (slicesDone s.mem c) = [] := by
    refine List.flatMap_eq_nil_iff.mpr fun j hj => ?_
    rw [sliceWritesAt_verify hop]
    exact correction_of_ne_single (h j ((List.mem_range.mp hj).trans_le slicesDone_le)) _ _
  exact congrArg (Memory.writeAll s.mem) hwrites

end

/-! ### The next command -/

/-- An engine that was idle before a command is idle after it (R40). -/
theorem State.afterCommand_idle {s : State} (h : s.eng.idle = true) (c : Command) :
    (s.afterCommand c).eng.idle = true := by
  obtain ⟨-, hwaiting⟩ := Engine.idle_eq_true.mp h
  exact Engine.idle_eq_true.mpr ⟨rfl, hwaiting⟩

/-- Acceptance does not depend on what ran before (R234). -/
theorem State.Accepts.afterCommand {s : State} {q : Command} (h : s.Accepts q) (c : Command) :
    (s.afterCommand c).Accepts q := h

/-- A command with a legal length that an idle engine answers has run to its response. -/
theorem exec_eq_afterCommand {i : Instr} {c : Command} {s t : State} (hcmd : i.command = some c)
    (hidle : s.eng.idle = true) (hlen : legalLength c.len = true) (ht : exec i s = .next t) : t = s.afterCommand c := by
  rcases exec_command_next hcmd ht with ⟨hbusy, -⟩ | ⟨-, hillegal, -⟩ | ⟨-, -, heq⟩
  · exact absurd hidle (by rw [hbusy]; decide)
  · exact absurd hlen (by rw [hillegal]; decide)
  · exact heq

/-! ### A slice and its code -/

/-- A slice is NoError if its code is that of its block (R163). -/
theorem classAt_eq_noError {m : List Host.Cell} {c : Command} {j : Nat} :
    classAt m c j = .noError ↔ codeAt m (c.cbase + 3 * j) = codeOf (blockAt m (c.dbase + 256 * j)) :=
  classify_eq_noError.trans (Code.xor_eq_zero.trans eq_comm)

/-- A VERIFY of buffers whose every slice is NoError (R188). -/
theorem State.afterCommand_of_clean {s : State} {c : Command} (hop : c.op = .verify)
    (h : ∀ j < blocks c.len, classAt s.mem c j = .noError) :
    (s.afterCommand c).eng.cls = .noError ∧ (s.afterCommand c).mem = s.mem := by
  have hnone : ((List.range (blocks c.len)).any fun j => classAt s.mem c j == .singleBitCorrected) = false := by
    refine List.any_eq_false.mpr fun j hj => ?_
    rw [h j (List.mem_range.mp hj)]
    decide
  refine ⟨?_, State.afterCommand_mem_of_uncorrected hop fun j hj => by rw [h j hj]; decide⟩
  rw [State.afterCommand_cls_of_soft hop fun j hj => by rw [h j hj]; rfl, hnone]
  rfl

/-- Settles O36: COMPUTE leaves the code of every block, and no byte of a block changed. -/
theorem verifyAfterComputeIsClean : Obligations.VerifyAfterComputeIsClean := by
  intro len d c s t hidle hacc ht
  obtain rfl := exec_eq_afterCommand (c := ⟨.compute, len, d, c⟩) rfl hidle hacc.1 ht
  obtain ⟨-, -, -, -, hdisjoint⟩ := hacc.buffers
  have hclean : ∀ j < blocks len,
      classAt (s.afterCommand ⟨.compute, len, d, c⟩).mem ⟨.verify, len, d, c⟩ j = .noError := by
    intro j hj
    refine classAt_eq_noError.mpr ((State.codeAt_afterCommand_compute rfl j hj).trans (codeOf_congr fun i hi => ?_))
    refine (State.read_afterCommand_compute_of_outside rfl ?_).symm
    dsimp only at hdisjoint ⊢
    omega
  obtain ⟨hcls, hmem⟩ := State.afterCommand_of_clean (c := ⟨.verify, len, d, c⟩) rfl hclean
  exact ⟨_, exec_of_accepts rfl (State.afterCommand_idle hidle _) (hacc.afterCommand _), rfl, hcls, hmem⟩

/-- Settles O39: a hard failure writes nothing, so that the second VERIFY256 finds the memory of the first. -/
theorem hardFailureRepeats : Obligations.HardFailureRepeats := by
  intro d c s t hidle hacc ht hhard
  obtain rfl := exec_eq_afterCommand rfl hidle hacc.1 ht
  have hone : blocks 256 = 1 := by decide
  have hcls (q : State) := State.afterCommand_cls_of_one (s := q) (c := ⟨.verify, 256, d, c⟩) hone rfl
  have huncorrected : ∀ j < 1, classAt s.mem ⟨.verify, 256, d, c⟩ j ≠ .singleBitCorrected := by
    intro j hj
    rw [Nat.lt_one_iff.mp hj, ← hcls]
    rcases hhard with h | h <;> rw [h] <;> decide
  have hmem (q : State) (hq : q.mem = s.mem) : (q.afterCommand ⟨.verify, 256, d, c⟩).mem = q.mem :=
    State.afterCommand_mem_of_uncorrected rfl (by rw [hq, hone]; exact huncorrected)
  have hfirst := hmem s rfl
  refine ⟨hfirst, _, exec_of_accepts rfl (State.afterCommand_idle hidle _) (hacc.afterCommand _), ?_,
    (hmem _ hfirst).trans hfirst⟩
  rw [hcls, hcls, hfirst]

/-! ### One damaged bit -/

/-- If one byte of slice `j` is damaged, the other slices of an accepted command are NoError: the buffers have no byte
in common (R64). -/
theorem State.Accepts.classAt_of_other_slice {s : State} {m : List Host.Cell} {c : Command} {j x : Nat}
    (hacc : s.Accepts c)
    (hcodes : ∀ i < blocks c.len, codeAt m (c.cbase + 3 * i) = codeOf (blockAt m (c.dbase + 256 * i)))
    (hm : ∀ a, a ≠ x → Memory.read s.mem a = Memory.read m a) (hj : j < blocks c.len)
    (hx : (c.dbase + 256 * j ≤ x ∧ x < c.dbase + 256 * j + 256) ∨ (c.cbase + 3 * j ≤ x ∧ x < c.cbase + 3 * j + 3)) :
    ∀ i < blocks c.len, i ≠ j → classAt s.mem c i = .noError := by
  intro i hi hij
  obtain ⟨-, -, -, -, hdisjoint⟩ := hacc.buffers
  have hblock : codeOf (blockAt s.mem (c.dbase + 256 * i)) = codeOf (blockAt m (c.dbase + 256 * i)) :=
    codeOf_congr fun b hb => hm _ (by omega)
  have hstored : codeAt s.mem (c.cbase + 3 * i) = codeAt m (c.cbase + 3 * i) :=
    codeAt_congr fun k hk => hm _ (by omega)
  rw [classAt_eq_noError, hstored, hcodes i hi, hblock]

section
variable {m m' : List Host.Cell}

/-- A damaged data bit in the block. -/
theorem blockAt_of_damaged {dp b k : Nat} (hm : ∀ a, Memory.read m' a =
      if a = dp + b then flipBit (Memory.read m a) k else Memory.read m a) :
    blockAt m' dp = flipDataBit (blockAt m dp) b k := by
  funext i
  rw [blockAt, hm, flipDataBit]
  exact if_congr Nat.add_left_cancel_iff rfl rfl

theorem Code.ext_byte {a b : Code} (h : ∀ k < 3, a.byte k = b.byte k) : a = b :=
  Code.ext_bytes (h 0 (by decide)) (h 1 (by decide)) (h 2 (by decide))

/-- A damaged code bit in the stored code. -/
theorem codeAt_of_damaged {cp k q : Nat} (hq : q < 8) (hm : ∀ a, Memory.read m' a =
      if a = cp + k then flipBit (Memory.read m a) q else Memory.read m a) :
    codeAt m' cp = flipCodeBit (codeAt m cp) (8 * k + q) := by
  refine Code.ext_byte fun i hi => ?_
  have hbyte : (8 * k + q) / 8 = k := by omega
  have hbit : (8 * k + q) % 8 = q := by omega
  have hiff : cp + i = cp + k ↔ k = i := by omega
  rw [byte_codeAt _ _ hi, byte_flipCodeBit _ _ hi, byte_codeAt _ _ hi, hm, hbyte, hbit]
  exact if_congr hiff rfl rfl

end

/-- VERIFY inverts one bit if the slice that holds it is the only one that is not NoError (R186). -/
theorem verifiedByte_of_one_single {m : List Host.Cell} {c : Command} {j : Nat} (hj : j < slicesPassed m c)
    (hsingle : classAt m c j = .singleBitCorrected) (hother : ∀ i < blocks c.len, i ≠ j → classAt m c i = .noError)
    (a : Nat) :
    verifiedByte m c a =
      if a = c.dbase + 256 * j + (byteOffset (syndromeAt m c j)).toNat then
        flipBit (Memory.read m a) (bitOffset (syndromeAt m c j)).toNat
      else Memory.read m a := by
  have hpassed : slicesPassed m c ≤ blocks c.len := (length_takeWhile_range _ _).1
  split
  case isTrue ha =>
    rw [ha, verifiedByte_block m c j (byteOffset _).isLt, if_pos ⟨hj, hsingle, rfl⟩]
  case isFalse ha =>
    refine if_neg fun ⟨hlo, hi, hclass, hoff⟩ => ha ?_
    have hslice : (a - c.dbase) / 256 = j := by
      by_contra hne
      have hclean := hother _ (hi.trans_le hpassed) hne
      rw [classAt, hclass] at hclean
      cases hclean
    rw [hslice] at hoff
    omega

/-- Settles O37: the damaged slice is the only one that is not NoError, and its correction inverts the damaged bit
again. -/
theorem singleBitErrorIsRepaired : Obligations.SingleBitErrorIsRepaired := by
  intro len d c j b k s m hidle hacc hcodes hj hb hk hm
  obtain ⟨-, -, -, -, hdisjoint⟩ := hacc.buffers
  dsimp only [blocks] at hdisjoint
  have hframe : ∀ a, a ≠ d + 256 * j + b → Memory.read s.mem a = Memory.read m a := fun a ha => (hm a).trans (if_neg ha)
  have hother := hacc.classAt_of_other_slice hcodes hframe hj (.inl (by dsimp only; omega))
  have hsyndrome : syndromeAt s.mem ⟨.verify, len, d, c⟩ j = preOf (oneBit b k) := by
    have hcode : codeAt s.mem (c + 3 * j) = codeOf (blockAt m (d + 256 * j)) :=
      (codeAt_congr fun i hi => hframe _ (by omega)).trans (hcodes j hj)
    rw [← codeOf_flipDataBit_xor_codeOf (blockAt m (d + 256 * j)), ← blockAt_of_damaged hm, ← hcode]
    rfl
  obtain ⟨hclass, hbyte, hbit⟩ := preOf_oneBit_located hb hk
  have hsingle : classAt s.mem ⟨.verify, len, d, c⟩ j = .singleBitCorrected := by rw [classAt, hsyndrome, hclass]
  have hsoft : ∀ i < blocks len, (classAt s.mem ⟨.verify, len, d, c⟩ i).hard = false := by
    intro i hi
    by_cases hij : i = j
    · rw [hij, hsingle]
      rfl
    · rw [hother i hi hij]
      rfl
  have hpassed : slicesPassed s.mem ⟨.verify, len, d, c⟩ = blocks len :=
    (slicesDone_verify rfl s.mem).symm.trans (slicesDone_of_soft hsoft)
  refine ⟨_, exec_of_accepts rfl hidle hacc, rfl, ?response, fun a => ?memory⟩
  case response =>
    have hcorrected : ((List.range (blocks len)).any fun i =>
        classAt s.mem ⟨.verify, len, d, c⟩ i == .singleBitCorrected) = true :=
      List.any_eq_true.mpr ⟨j, List.mem_range.mpr hj, by rw [hsingle]; rfl⟩
    rw [State.afterCommand_cls_of_soft rfl hsoft, hcorrected]
    rfl
  case memory =>
    rw [State.read_afterCommand_verify rfl, verifiedByte_of_one_single (hpassed ▸ hj) hsingle hother, hsyndrome, hbyte,
      hbit, hm]
    split
    · exact flipBit_flipBit _ _
    · rfl

/-- Settles O38: the damaged slice is the first that is not NoError, and a hard failure. -/
theorem damagedCodeIsReported : Obligations.DamagedCodeIsReported := by
  intro len d c j k q s m hidle hacc hcodes hj hk hq hm
  obtain ⟨-, -, -, -, hdisjoint⟩ := hacc.buffers
  dsimp only [blocks] at hdisjoint
  have hframe : ∀ a, a ≠ c + 3 * j + k → Memory.read s.mem a = Memory.read m a := fun a ha => (hm a).trans (if_neg ha)
  have hother := hacc.classAt_of_other_slice hcodes hframe hj (.inr (by dsimp only; omega))
  have hcorrupted : classAt s.mem ⟨.verify, len, d, c⟩ j = .eccCorrupted := by
    have hblock : codeOf (blockAt s.mem (d + 256 * j)) = codeOf (blockAt m (d + 256 * j)) :=
      codeOf_congr fun i hi => hframe _ (by omega)
    have hcode : codeAt s.mem (c + 3 * j) = flipCodeBit (codeOf (blockAt s.mem (d + 256 * j))) (8 * k + q) := by
      rw [codeAt_of_damaged hq hm, hcodes j hj, hblock]
    exact (congrArg (fun sc => classify (Code.xor _ sc)) hcode).trans (classify_flipCodeBit _ (by omega))
  have huncorrected : ∀ i < blocks len, classAt s.mem ⟨.verify, len, d, c⟩ i ≠ .singleBitCorrected := by
    intro i hi
    by_cases hij : i = j
    · rw [hij, hcorrupted]
      decide
    · rw [hother i hi hij]
      decide
  have hbefore : ∀ i < j, (classAt s.mem ⟨.verify, len, d, c⟩ i).hard = false := by
    intro i hi
    rw [hother i (hi.trans hj) hi.ne]
    rfl
  refine ⟨_, exec_of_accepts rfl hidle hacc, rfl, ?_, State.afterCommand_mem_of_uncorrected rfl huncorrected⟩
  rw [State.afterCommand_cls_of_hard rfl hj hbefore (by rw [hcorrupted]; rfl), hcorrupted]

end Sys2Proof.Machine
end

section
/-! PROOFS. VERIFY completes (44_verify_multi.md R180 to R186): the response in closed form is the aggregate of the
slices' classifications. The two levels of decision D1 agree: the scan that a command runs as one step is what the
engine does step by step. -/

namespace Sys2Proof.Machine

/-! ### The aggregate of the classifications, slice by slice -/

section
variable {f : Nat → Classification} {n : Nat}

/-- The first hard failure is the aggregate (R184, R185). -/
theorem aggregate_of_hard {k : Nat} (hk : k < n) (hsoft : ∀ j < k, (f j).hard = false) (hhard : (f k).hard = true) :
    aggregate ((List.range n).map f) = f k := by
  have hfirst : (List.range n).find? (Classification.hard ∘ f) = some k := by
    rw [List.find?_range_eq_some]
    exact ⟨hhard, List.mem_range.mpr hk, fun j hj => by simp [hsoft j hj]⟩
  rw [aggregate, List.find?_map, hfirst]
  rfl

/-- Without a hard failure the aggregate says whether a slice was corrected (R185). -/
theorem aggregate_of_soft (hsoft : ∀ j < n, (f j).hard = false) :
    aggregate ((List.range n).map f) =
      finalClass .verify ((List.range n).any fun j => f j == .singleBitCorrected) := by
  have hnone : ((List.range n).map f).find? Classification.hard = none := by
    simpa using hsoft
  simp [aggregate, hnone, finalClass]

end

/-- The response to a VERIFY is the aggregate of its slices, in scan order (R185). -/
theorem State.afterCommand_cls_eq_aggregate (s : State) {c : Command} (hop : c.op = .verify) :
    (s.afterCommand c).eng.cls = aggregate ((List.range (blocks c.len)).map (classAt s.mem c)) := by
  have hsoft : ∀ j < slicesDone s.mem c, (classAt s.mem c j).hard = false := fun j hj => by
    rw [← sliceClassAt_verify hop, soft_of_lt_slicesDone hj]
  rcases Nat.lt_or_eq_of_le (slicesDone_le (m := s.mem) (c := c)) with hlt | heq
  · have hhard : (classAt s.mem c (slicesDone s.mem c)).hard = true := by
      rw [← sliceClassAt_verify hop, hard_at_slicesDone hlt]
    rw [State.afterCommand_cls_of_hard hop hlt hsoft hhard, aggregate_of_hard hlt hsoft hhard]
  · rw [heq] at hsoft
    rw [State.afterCommand_cls_of_soft hop hsoft, aggregate_of_soft hsoft]

/-- Settles O23: the closed form of the command, whose response is the aggregate and whose writes are the corrections
of the slices before the first hard failure. -/
theorem verifyCompletes : Obligations.VerifyCompletes := by
  intro i c s hcmd hop hidle hacc
  exact ⟨_, exec_of_accepts hcmd hidle hacc, s.afterCommand_cls_eq_aggregate hop,
    State.read_afterCommand_verify hop, rfl, rfl⟩

/-! ### The engine's own steps run the scan -/

section
variable {s : State} (hin : s.inputs = []) (hbusy : s.eng.busy = true)
include hin hbusy

theorem step_of_slices_left (h : s.eng.blk < s.eng.n) : step s = .next s.slice := by
  simp [step_of_no_input hin, State.engineStep, hbusy, h]

theorem step_of_no_slice_left (h : s.eng.n ≤ s.eng.blk) : step s = .next s.finish := by
  simp [step_of_no_input hin, State.engineStep, hbusy, h]

end

theorem run_one_of_next {s t : State} (h : step s = .next t) : Host.Core.run core 1 s = .next t :=
  run_succ_of_next h 0

/-- The engine by itself reaches what the scan of the `k` slices that are left reaches: one step for each slice and one
for the response, or fewer after a hard failure (R182, R184). -/
theorem run_eq_scan (k : Nat) : ∀ s : State, s.inputs = [] → s.eng.busy = true → s.eng.blk + k = s.eng.n →
    ∃ j ≤ k + 1, Host.Core.run core j s = .next (scan k s) := by
  induction k with
  | zero =>
    intro s hin hbusy hk
    exact ⟨1, le_rfl, run_one_of_next (step_of_no_slice_left hin hbusy hk.ge)⟩
  | succ k ih =>
    intro s hin hbusy hk
    have hstep := step_of_slices_left hin hbusy (by omega)
    cases hgoes : s.slice.eng.busy
    · rw [scan_succ_of_not_busy hgoes]
      exact ⟨1, by omega, run_one_of_next hstep⟩
    · obtain ⟨j, hj, hrun⟩ := ih s.slice hin hgoes (by rw [State.slice_blk_of_busy hgoes, State.slice_n]; omega)
      rw [scan_succ_of_busy hgoes]
      exact ⟨j + 1, by omega, (run_succ_of_next hstep j).trans hrun⟩

/-- An idle engine at which one command waits accepts it in its next step, as one to which it is presented (R40). -/
theorem step_of_one_waiting {s : State} (hin : s.inputs = []) (hidle : s.eng.idle = true) (c : Command) :
    step { s with eng := { s.eng with waiting := [c] } } = s.accept c := by
  obtain ⟨hbusy, hwaiting⟩ := Engine.idle_eq_true.mp hidle
  rw [step_of_no_input (s := { s with eng := { s.eng with waiting := [c] } }) hin,
    State.engineStep_of_waiting (s := { s with eng := { s.eng with waiting := [c] } }) hbusy rfl, ← hwaiting]

/-- Settles O53: the waiting command is accepted in one step; a bad length ends there, and the engine's own steps run
the scan of a legal one. -/
theorem wholeCommandEqualsItsSlices : Obligations.WholeCommandEqualsItsSlices := by
  intro i c s t hcmd hin hidle ht
  have hstep := step_of_one_waiting hin hidle c
  rw [exec_of_command hcmd] at ht
  rcases State.runCommand_next ht with ⟨hbusy, -⟩ | ⟨-, hillegal, rfl⟩ | ⟨-, hacc, rfl⟩
  · rw [hidle] at hbusy
    cases hbusy
  · exact ⟨1, by omega, run_one_of_next (hstep.trans (State.accept_of_illegal hillegal))⟩
  · obtain ⟨j, hj, hrun⟩ := run_eq_scan (blocks c.len) { s with eng := s.eng.start c } hin rfl (Nat.zero_add _)
    exact ⟨j + 1, Nat.succ_le_succ hj,
      (run_succ_of_next (hstep.trans (State.accept_of_accepts hacc)) j).trans hrun⟩

end Sys2Proof.Machine
end

section
/-! PROOFS. Exceptions and instances side by side (60_exceptions.md): the one error, LengthError, and what it leaves
unchanged; and two instances that run at once, whose steps commute because neither writes what the other reads. -/

namespace Sys2Proof.Machine

/-! ### LengthError -/

theorem legalLength_eq_false_iff {len : Nat} : legalLength len = false ↔ len = 0 ∨ len % 256 ≠ 0 := by
  rw [← Bool.not_eq_true, legalLength_iff, blocks]
  omega

/-- At an engine that runs nothing, LengthError writes the command fields and the response only (R200, R203). -/
theorem Engine.raiseLengthError_of_not_busy {e : Engine} (h : e.busy = false) (c : Command) :
    e.raiseLengthError c = { e with cmd := c, err := true, cls := .noError } := by
  simp only [Engine.raiseLengthError, Engine.respond, h]

/-- Settles O26: the length is tested before everything else, and an idle engine was not busy before. -/
theorem lengthErrorFrame : Obligations.LengthErrorFrame := by
  intro i c s hcmd hidle hlen
  obtain ⟨hbusy, -⟩ := Engine.idle_eq_true.mp hidle
  rw [exec_of_command hcmd, State.runCommand_of_illegal hidle (legalLength_eq_false_iff.mpr hlen),
    Engine.raiseLengthError_of_not_busy hbusy]

/-- Settles O25: by the frame of LengthError, which leaves memory, `BUSY` and the waiting commands as they were. -/
theorem badLengthIsLengthError : Obligations.BadLengthIsLengthError :=
  fun i c s hcmd hidle hlen => ⟨_, lengthErrorFrame i c s hcmd hidle hlen, rfl, rfl, rfl, hidle⟩

/-! ### One step of a running engine, as a function of the engine and the memory alone -/

/-- The engine after the slice it stands at: the next slice, or the response to a hard failure (R183, R184). -/
def Engine.afterSlice (p : Params) (m : List Host.Cell) (e : Engine) : Engine :=
  let e' := { e with work := e.sliceWork m, corr := corrAfter (e.sliceClass m) e.corr }
  if (e.sliceClass m).hard then e'.respond false (e.sliceClass m) else e'.advance p

theorem State.slice_eng_eq_afterSlice (s : State) : s.slice.eng = s.eng.afterSlice s.params s.mem := rfl

/-- A running engine after one step of its own: after its slice, or with the response if no slice is left. -/
def Engine.afterStep (p : Params) (m : List Host.Cell) (e : Engine) : Engine :=
  if e.blk < e.n then e.afterSlice p m else e.respond false (finalClass e.cmd.op e.corr)

/-- The byte writes of that step. -/
def Engine.stepWrites (m : List Host.Cell) (e : Engine) : List Host.Cell :=
  if e.blk < e.n then e.sliceWrites m else []

/-- The memory after that step. -/
def Engine.memAfterStep (m : List Host.Cell) (e : Engine) : List Host.Cell := Memory.writeAll m (e.stepWrites m)

/-- The step of a running engine in those words: it changes the engine that moves and the memory. -/
theorem State.engineStep_of_busy {s : State} (h : s.eng.busy = true) :
    s.engineStep = .next { s with eng := s.eng.afterStep s.params s.mem, mem := s.eng.memAfterStep s.mem } := by
  by_cases hblk : s.eng.blk < s.eng.n
  · simp only [State.engineStep, h, if_true, Engine.afterStep, Engine.memAfterStep, Engine.stepWrites, if_pos hblk]
    rw [State.slice_eq s.slice_eng_eq_afterSlice s.slice_mem]
  · simp only [State.engineStep, h, if_true, Engine.afterStep, Engine.memAfterStep, Engine.stepWrites, if_neg hblk]
    rfl

/-! ### A slice stays in the buffers of its command -/

/-- What a slice reads lies in its block or is one of its code bytes (R61). -/
theorem Engine.mem_sliceReads {e : Engine} {m : List Host.Cell} {a : Nat} (h : a ∈ e.sliceReads m) :
    (e.dp ≤ a ∧ a < e.dp + 256) ∨ (e.cp ≤ a ∧ a < e.cp + 3) := by
  have hblock : a ∈ (List.range 256).map (fun i => e.dp + i) → e.dp ≤ a ∧ a < e.dp + 256 := by
    simp only [List.mem_map, List.mem_range]
    omega
  cases hop : e.cmd.op
  · simp only [Engine.sliceReads, hop] at h
    exact .inl (hblock h)
  · simp only [Engine.sliceReads, hop, List.mem_append] at h
    rcases h with (hdata | hcode) | hcorrected
    · exact .inl (hblock hdata)
    · simp only [List.mem_cons, List.not_mem_nil, or_false] at hcode
      omega
    · obtain ⟨w, hw, rfl⟩ := List.mem_map.mp hcorrected
      exact (Engine.sliceWrites_mem hw).symm.imp And.right And.right

section
variable {p : Params} {e : Engine} (h : e.Inv p) (hbusy : e.busy = true) (hblk : e.blk < e.n)
include h hbusy hblk

/-- The block a running engine stands at is in its data buffer (R31, R50). -/
theorem Engine.Inv.dataBuffer_contains {a : Nat} (ha : e.dp ≤ a ∧ a < e.dp + 256) :
    e.cmd.dataBuffer.contains a = true := by
  obtain ⟨hlen, hn, hwraps, -, hdp, -⟩ := h.running hbusy
  obtain ⟨htop, -⟩ := Command.wraps_eq_false.mp hwraps
  have hbytes := len_of_legal hlen
  rw [Nat.mod_eq_of_lt (by omega)] at hdp
  simp only [Region.contains_iff, Command.dataBuffer]
  omega

/-- The code bytes a running engine stands at are in its code buffer (R31, R50). -/
theorem Engine.Inv.codeBuffer_contains {a : Nat} (ha : e.cp ≤ a ∧ a < e.cp + 3) :
    e.cmd.codeBuffer.contains a = true := by
  obtain ⟨-, hn, hwraps, -, -, hcp⟩ := h.running hbusy
  obtain ⟨-, htop⟩ := Command.wraps_eq_false.mp hwraps
  rw [Nat.mod_eq_of_lt (by omega)] at hcp
  simp only [Region.contains_iff, Command.codeBuffer]
  omega

theorem Engine.Inv.uses_of_sliceReads {m : List Host.Cell} {a : Nat} (ha : a ∈ e.sliceReads m) :
    e.cmd.uses a = true :=
  Command.uses_iff.mpr <| (Engine.mem_sliceReads ha).imp
    (h.dataBuffer_contains hbusy hblk) (h.codeBuffer_contains hbusy hblk)

theorem Engine.Inv.written_of_sliceWrites {m : List Host.Cell} {w : Host.Cell} (hw : w ∈ e.sliceWrites m) :
    e.cmd.written.contains w.1 = true := by
  rcases Engine.sliceWrites_mem hw with ⟨hop, hplace⟩ | ⟨hop, hplace⟩
  · simpa only [Command.written, hop] using h.codeBuffer_contains hbusy hblk hplace
  · simpa only [Command.written, hop] using h.dataBuffer_contains hbusy hblk hplace

end

/-! ### A step of an engine does not see what a command that is not in conflict writes -/

section
variable {p : Params} {e : Engine} (h : e.Inv p) (hbusy : e.busy = true)
include h hbusy

/-- A step writes only what its command may write (R60). -/
theorem Engine.Inv.written_of_stepWrites {m : List Host.Cell} {w : Host.Cell} (hw : w ∈ e.stepWrites m) :
    e.cmd.written.contains w.1 = true := by
  unfold Engine.stepWrites at hw
  split at hw
  case isTrue hblk => exact h.written_of_sliceWrites hbusy hblk hw
  case isFalse => cases hw

/-- A step depends on the bytes of its command's buffers only (R61, R218). -/
theorem Engine.Inv.step_congr {m m' : List Host.Cell}
    (hm : ∀ a, e.cmd.uses a = true → Memory.read m a = Memory.read m' a) :
    e.afterStep p m = e.afterStep p m' ∧ e.stepWrites m = e.stepWrites m' := by
  by_cases hblk : e.blk < e.n
  · obtain ⟨hwork, hwrites, hclass⟩ := (sliceDependsOnItsReads e m m').1 fun a ha =>
      hm a (h.uses_of_sliceReads hbusy hblk ha)
    simp only [Engine.afterStep, Engine.stepWrites, if_pos hblk, Engine.afterSlice, hwork, hwrites, hclass, and_self]
  · simp only [Engine.afterStep, Engine.stepWrites, if_neg hblk, and_self]

/-- Writes to bytes that the command does not use make no difference to a step. -/
theorem Engine.Inv.step_writeAll {ws : List Host.Cell} (hws : ∀ w ∈ ws, e.cmd.uses w.1 = false)
    (m : List Host.Cell) :
    e.afterStep p (Memory.writeAll m ws) = e.afterStep p m ∧
      e.stepWrites (Memory.writeAll m ws) = e.stepWrites m := by
  refine h.step_congr hbusy fun a ha => Memory.read_writeAll_of_unwritten (fun w hw hwa => ?_) m
  rw [← hwa, hws w hw] at ha
  cases ha

end

/-- Writes to two sets of addresses with none in common leave every byte the same in either order. -/
theorem Memory.read_writeAll_comm {ws vs : List Host.Cell} (h : ∀ w ∈ ws, ∀ v ∈ vs, w.1 ≠ v.1)
    (m : List Host.Cell) (a : Nat) :
    Memory.read (Memory.writeAll (Memory.writeAll m ws) vs) a =
      Memory.read (Memory.writeAll (Memory.writeAll m vs) ws) a := by
  by_cases hws : ∀ w ∈ ws, w.1 ≠ a
  · rw [Memory.read_writeAll_of_unwritten hws]
    exact Memory.read_writeAll_congr (Memory.read_writeAll_of_unwritten hws m) vs
  · push Not at hws
    obtain ⟨w, hw, rfl⟩ := hws
    have hvs : ∀ v ∈ vs, v.1 ≠ w.1 := fun v hv => (h w hw v hv).symm
    rw [Memory.read_writeAll_of_unwritten hvs]
    exact Memory.read_writeAll_congr (Memory.read_writeAll_of_unwritten hvs m).symm ws

/-! ### Two instances move one after the other -/

/-- The machine with two instances and the memory named, `e` the one that moves next. -/
def State.withPair (s : State) (e f : Engine) (rest : List Engine) (m : List Host.Cell) (inputs : List HostInput) :
    State :=
  { s with eng := e, others := f :: rest, mem := m, inputs := inputs }

section
variable {s : State} {e f : Engine} {rest : List Engine} {m : List Host.Cell} {inputs : List HostInput}

theorem State.withInputs_eq_withPair (hothers : s.others = f :: rest) (inputs : List HostInput) :
    { s with inputs := inputs } = s.withPair s.eng f rest s.mem inputs := by
  rw [State.withPair, ← hothers]

theorem step_withPair_switch :
    step (s.withPair e f rest m (.switch 0 :: inputs)) = .next (s.withPair f e rest m inputs) := rfl

variable (he : e.busy = true)
include he

theorem step_withPair_tick :
    step (s.withPair e f rest m (.tick :: inputs)) =
      .next (s.withPair (e.afterStep s.params m) f rest (e.memAfterStep m) inputs) :=
  (step_tick rfl).trans (State.engineStep_of_busy (s := s.withPair e f rest m inputs) he)

variable (hf : f.busy = true)
include hf

/-- The engine that stands first moves first: the other finds the memory as it left it. -/
theorem run_first_then_other :
    Host.Core.run core 4 (s.withPair e f rest m [.tick, .switch 0, .tick, .switch 0]) =
      .next (s.withPair (e.afterStep s.params m) (f.afterStep s.params (e.memAfterStep m)) rest
        (f.memAfterStep (e.memAfterStep m)) []) :=
  (run_succ_of_next (step_withPair_tick he) 3).trans <| (run_succ_of_next step_withPair_switch 2).trans <|
    (run_succ_of_next (step_withPair_tick hf) 1).trans <| run_succ_of_next step_withPair_switch 0

/-- The other engine moves first, and the one that stands first finds the memory as the other left it. -/
theorem run_other_then_first :
    Host.Core.run core 4 (s.withPair e f rest m [.switch 0, .tick, .switch 0, .tick]) =
      .next (s.withPair (e.afterStep s.params (f.memAfterStep m)) (f.afterStep s.params m) rest
        (e.memAfterStep (f.memAfterStep m)) []) :=
  (run_succ_of_next step_withPair_switch 3).trans <| (run_succ_of_next (step_withPair_tick hf) 2).trans <|
    (run_succ_of_next step_withPair_switch 1).trans <| run_succ_of_next (step_withPair_tick he) 0

end

/-- Settles O54: neither command uses a byte that the other may write, so each engine makes the same step and the same
writes whether it moves first or second, and the writes of the two have no byte in common. -/
theorem disjointInstancesCommute : Obligations.DisjointInstancesCommute := by
  intro s f rest hinv hothers hs hf hconflict
  obtain ⟨hfree, hfree', -⟩ := Command.conflicts_eq_false.mp hconflict
  have hfinv : f.Inv s.params := hinv.othersInv f (by simp [hothers])
  have hfirst : ∀ w ∈ s.eng.stepWrites s.mem, f.cmd.uses w.1 = false := fun w hw =>
    hfree w.1 (hinv.engInv.written_of_stepWrites hs hw)
  have hother : ∀ v ∈ f.stepWrites s.mem, s.eng.cmd.uses v.1 = false := fun v hv =>
    hfree' v.1 (hfinv.written_of_stepWrites hf hv)
  obtain ⟨hsStep, hsWrites⟩ := hinv.engInv.step_writeAll hs hother s.mem
  obtain ⟨hfStep, hfWrites⟩ := hfinv.step_writeAll hf hfirst s.mem
  rw [State.withInputs_eq_withPair hothers, State.withInputs_eq_withPair hothers]
  refine ⟨_, _, run_first_then_other hs hf, run_other_then_first hs hf, hsStep.symm, congrArg (· :: rest) hfStep,
    fun a => ?_⟩
  simp only [State.withPair, Engine.memAfterStep, hsWrites, hfWrites]
  refine Memory.read_writeAll_comm (fun w hw v hv hwv => ?_) s.mem a
  have hused := Command.uses_of_written (hfinv.written_of_stepWrites hf hv)
  rw [← hwv, hfirst w hw] at hused
  cases hused

end Sys2Proof.Machine
end

section
/-! PROOFS. Reset and hazards (70_reset_and_hazards.md): what a reset leaves of the slice in progress, the accesses and
commands of other agents that a running command shuts out, and that every command ends. -/

namespace Sys2Proof

open Machine

/-! ### The bytes of a command's buffers -/

section
variable {c q : Command} {a : Nat}

theorem Command.uses_iff_bounds :
    c.uses a = true ↔
      (c.dbase ≤ a ∧ a < c.dbase + c.len) ∨ (c.cbase ≤ a ∧ a < c.cbase + 3 * (c.len / 256)) := by
  simp only [Command.uses_iff, Region.contains_iff, Command.dataBuffer, Command.codeBuffer, blocks]

theorem Command.written_contains_iff :
    c.written.contains a = true ↔
      (c.op = .verify ∧ c.dbase ≤ a ∧ a < c.dbase + c.len) ∨
        (c.op = .compute ∧ c.cbase ≤ a ∧ a < c.cbase + 3 * (c.len / 256)) := by
  cases hop : c.op <;>
    simp [Command.written, hop, Command.dataBuffer, Command.codeBuffer, blocks]

/-- A command with a byte in its code buffer is a VERIFY, or may write that byte (R60). -/
theorem Command.verify_or_written_of_codeBuffer (h : c.codeBuffer.contains a = true) :
    c.op = .verify ∨ c.written.contains a = true := by
  cases hop : c.op
  case compute => exact .inr (by rwa [Command.written, hop])
  case verify => exact .inl rfl

/-- Two commands that share a byte are in conflict, unless both are COMPUTEs that have it in their data buffers (U3). -/
theorem Command.conflicts_of_shared_byte (hc : c.uses a = true) (hq : q.uses a = true)
    (h : c.op = .verify ∨ q.op = .verify ∨ c.codeBuffer.contains a = true ∨ q.codeBuffer.contains a = true) :
    c.conflicts q = true := by
  refine Command.conflicts_iff.mpr ⟨a, hc, hq, ?_⟩
  rcases h with hop | hop | hcode | hcode
  · exact .inl hop
  · exact .inr (.inl hop)
  · exact (Command.verify_or_written_of_codeBuffer hcode).elim .inl fun hw => .inr (.inr (.inl hw))
  · exact .inr ((Command.verify_or_written_of_codeBuffer hcode).imp_right .inr)

end

end Sys2Proof

namespace Sys2Proof.Machine

/-! ### Reset inside a slice -/

theorem step_reset {s : State} {made : Nat} {rest : List HostInput} (hin : s.inputs = .reset made :: rest) :
    step s = .next (State.resetEngine { s with inputs := rest } made) := by
  simp only [step, hin]

theorem State.resetEngine_mem_of_no_slice {s : State} (h : s.eng.busy = false ∨ s.eng.n ≤ s.eng.blk) (made : Nat) :
    (s.resetEngine made).mem = s.mem := by
  rcases h with hidle | hdone
  · simp [State.resetEngine, hidle]
  · simp [State.resetEngine, Nat.not_lt.mpr hdone]

theorem State.resetEngine_mem_of_slice {s : State} (hbusy : s.eng.busy = true) (hblk : s.eng.blk < s.eng.n)
    (made : Nat) :
    (s.resetEngine made).mem = Memory.writeAll s.mem ((s.eng.sliceWrites s.mem).take made) := by
  simp [State.resetEngine, hbusy, hblk]

/-- A read after `n` bytes were written one behind the other from `p` on. -/
theorem Memory.read_writeAll_range (m : List Host.Cell) (p : Nat) (f : Nat → Byte) (n a : Nat) :
    Memory.read (Memory.writeAll m ((List.range n).map fun i => (p + i, f i))) a =
      if p ≤ a ∧ a < p + n then f (a - p) else Memory.read m a := by
  induction n with
  | zero =>
    rw [if_neg (by omega)]
    rfl
  | succ n ih =>
    rw [List.range_succ, List.map_append, Memory.writeAll_append]
    simp only [List.map_cons, List.map_nil, Memory.writeAll_cons, Memory.writeAll_nil, Memory.read_write, ih]
    by_cases hlast : a = p + n
    · subst hlast
      simp
    · have hbound : (a < p + (n + 1)) ↔ a < p + n := by omega
      simp only [hlast, hbound, if_false]

/-- A slice of COMPUTE writes the bytes of the code of its block one behind the other (R61). -/
theorem Engine.sliceWrites_compute_eq_map {e : Engine} (hop : e.cmd.op = .compute) (m : List Host.Cell) :
    e.sliceWrites m = (List.range 3).map fun k => (e.cp + k, (codeOf (blockAt m e.dp)).byte k) :=
  Engine.sliceWrites_compute hop m

/-- The correction is one byte write, made or not: no byte is half-corrected (R233). -/
theorem take_correction (D : Nat → Byte) (dp : Nat) (sy : Code) (made : Nat) :
    (correction D dp sy).take made = if 1 ≤ made then correction D dp sy else [] := by
  split
  case isTrue hmade => exact List.take_of_length_le ((correction_length D dp sy).trans hmade)
  case isFalse hmade =>
    rw [Nat.lt_one_iff.mp (Nat.not_le.mp hmade)]
    exact List.take_zero

section
variable {s : State} (hbusy : s.eng.busy = true) (hblk : s.eng.blk < s.eng.n)
include hbusy hblk

/-- Of the slice of a running COMPUTE, a reset leaves the first `made` code bytes (R233). -/
theorem State.read_resetEngine_compute (hop : s.eng.cmd.op = .compute) (made a : Nat) :
    Memory.read (s.resetEngine made).mem a =
      if s.eng.cp ≤ a ∧ a < s.eng.cp + min made 3 then (codeOf (blockAt s.mem s.eng.dp)).byte (a - s.eng.cp)
      else Memory.read s.mem a := by
  rw [State.resetEngine_mem_of_slice hbusy hblk, Engine.sliceWrites_compute_eq_map hop, ← List.map_take,
    List.take_range, Memory.read_writeAll_range]

/-- Of the slice of a running VERIFY, a reset leaves the correction, if it was made (R233). -/
theorem State.read_resetEngine_verify (hop : s.eng.cmd.op = .verify) (made a : Nat) :
    let sy := (codeOf (blockAt s.mem s.eng.dp)).xor (codeAt s.mem s.eng.cp)
    Memory.read (s.resetEngine made).mem a =
      if 1 ≤ made ∧ classify sy = .singleBitCorrected ∧ a = s.eng.dp + (byteOffset sy).toNat then
        flipBit (Memory.read s.mem a) (bitOffset sy).toNat
      else Memory.read s.mem a := by
  intro sy
  rw [State.resetEngine_mem_of_slice hbusy hblk, Engine.sliceWrites_verify hop, take_correction]
  by_cases hmade : 1 ≤ made
  · rw [if_pos hmade, read_writeAll_correction]
    simp only [hmade, true_and]
    split
    case isTrue hplace => rw [hplace.2]; rfl
    case isFalse => rfl
  · simp [hmade]

end

/-- Settles O44: a step with a reset is that reset, and the byte writes of the slice in progress are the code bytes in
their order or the one correction. -/
theorem resetAbandonsTheCommand : Obligations.ResetAbandonsTheCommand := by
  intro s made rest hin
  exact ⟨_, step_reset hin, rfl, rfl, rfl, rfl, rfl, rfl, rfl, rfl,
    fun h => State.resetEngine_mem_of_no_slice (s := { s with inputs := rest }) h made,
    fun hbusy hblk hop a =>
      State.read_resetEngine_compute (s := { s with inputs := rest }) hbusy hblk hop made a,
    fun hbusy hblk hop a =>
      State.read_resetEngine_verify (s := { s with inputs := rest }) hbusy hblk hop made a⟩

/-! ### Data races -/

section
variable {s : State} {f : Engine} (hbusy : f.busy = true)
include hbusy

section
variable {a : Nat} (hf : f ∈ s.eng :: s.others)
include hf

theorem State.ownedForWrite_of_running (h : f.cmd.uses a = true) : s.ownedForWrite a = true :=
  List.any_eq_true.mpr ⟨f, hf, by simp [hbusy, h]⟩

theorem State.ownedForRead_of_running (h : f.cmd.written.contains a = true) : s.ownedForRead a = true :=
  List.any_eq_true.mpr ⟨f, hf, by rw [hbusy, h]; rfl⟩

end

theorem State.contended_of_running {c : Command} (hf : f ∈ s.others) (h : c.conflicts f.cmd = true) :
    s.contended c = true :=
  List.any_eq_true.mpr ⟨f, hf, by simp [hbusy, h]⟩

end

section
variable {s : State} {a : Nat} (ha : a < 2 ^ s.params.aw) (hstorage : s.noStorageAt a = false)
include ha hstorage

theorem State.hostWrite_of_owned (h : s.ownedForWrite a = true) (v : Byte) : s.hostWrite a v = .refused .dataRace := by
  simp [State.hostWrite, ha, hstorage, h]

theorem State.hostRead_of_owned (h : s.ownedForRead a = true) : s.hostRead a = .refused .dataRace := by
  simp [State.hostRead, ha, hstorage, h]

end

theorem State.accept_of_contended {s : State} {c : Command} (hlen : legalLength c.len = true)
    (hwraps : c.wraps s.params = false) (hoverlaps : c.overlaps = false) (htouches : c.touches s.nonStorage = false)
    (h : s.contended c = true) : s.accept c = .refused .dataRace := by
  simp [State.accept, hlen, hwraps, hoverlaps, htouches, h]

/-- Settles O45: the running command owns the byte that the host names, and is in conflict with the command that another
engine is given. -/
theorem dataRacesAreRefused : Obligations.DataRacesAreRefused := by
  intro s f hbusy
  refine ⟨fun a v rest hf ha hregions hbyte => ?write, fun a rest hf ha hregions hbyte => ?read,
    fun i c hf hcmd hidle hlen hwraps hoverlaps htouches ⟨a, hc, hfa, hkind⟩ => ?command⟩
  case write =>
    have howned := State.ownedForWrite_of_running hbusy (List.mem_cons.mpr hf) (Command.uses_iff_bounds.mpr hbyte)
    rw [step_write]
    exact State.hostWrite_of_owned (s := { s with inputs := rest }) ha (State.noStorageAt_eq_false.mpr hregions)
      howned v
  case read =>
    have howned := State.ownedForRead_of_running hbusy (List.mem_cons.mpr hf) (Command.written_contains_iff.mpr hbyte)
    rw [step_read]
    exact State.hostRead_of_owned (s := { s with inputs := rest }) ha (State.noStorageAt_eq_false.mpr hregions) howned
  case command =>
    have hconflict : c.conflicts f.cmd = true :=
      Command.conflicts_of_shared_byte (Command.uses_iff_bounds.mpr hc) (Command.uses_iff_bounds.mpr hfa)
        (by simpa [Command.codeBuffer, blocks] using hkind)
    exact exec_of_refused hcmd hidle
      (State.accept_of_contended hlen hwraps hoverlaps htouches (State.contended_of_running hbusy hf hconflict))

/-! ### Every command ends -/

/-- Settles O52: the engine by itself reaches the end of the scan of the slices that are left, and every scan ends with
the response. -/
theorem everyCommandEnds : Obligations.EveryCommandEnds := by
  intro s hin hbusy
  rcases Nat.le_total s.eng.blk s.eng.n with hle | hdone
  · obtain ⟨k, hk, hrun⟩ := run_eq_scan (s.eng.n - s.eng.blk) s hin hbusy (Nat.add_sub_cancel' hle)
    exact ⟨k, _, hk, hrun, scan_not_busy _ s⟩
  · exact ⟨1, s.finish, Nat.le_add_left 1 _, run_one_of_next (step_of_no_slice_left hin hbusy hdone), rfl⟩

end Sys2Proof.Machine
end
